-- ==== Sys2Proof/Syntax.lean ====
section
/-! DEFINITION. Sys2Proof/Syntax.lean: the commands of the block, one constructor per row of spec/opcode_table.json
(spec/30_encoding.md R67), and the abstract syntax of its assembler (R73, R74). -/

namespace Sys2Proof

/-- Where operand A comes from (R63). The reserved value 3 has no constructor: it does not decode. -/
inductive ASel where
  | port
  | r0
  | r1
deriving DecidableEq, Repr

/-- Where operand B comes from (R64). -/
inductive BSel where
  | port
  | r0
  | r1
  | zextS
deriving DecidableEq, Repr

/-- The 22 commands (R67). A command that reads B carries both selectors; NOT, NEG, SHL and LSR carry only the first
(R68). Every term is a legal command: the illegal words of R69 are no terms. -/
inductive Instr where
  | and (a : ASel) (b : BSel)
  | or (a : ASel) (b : BSel)
  | xor (a : ASel) (b : BSel)
  | not (a : ASel)
  | eq (a : ASel) (b : BSel)
  | ne (a : ASel) (b : BSel)
  | lt (a : ASel) (b : BSel)
  | le (a : ASel) (b : BSel)
  | gt (a : ASel) (b : BSel)
  | ge (a : ASel) (b : BSel)
  | add (a : ASel) (b : BSel)
  | addc (a : ASel) (b : BSel)
  | sub (a : ASel) (b : BSel)
  | neg (a : ASel)
  | shl (a : ASel)
  | lsr (a : ASel)
  | shlw (a : ASel) (b : BSel)
  | lsrw (a : ASel) (b : BSel)
  | mul (a : ASel) (b : BSel)
  | mulf (a : ASel) (b : BSel)
  | udivrem (a : ASel) (b : BSel)
  | sdivrem (a : ASel) (b : BSel)
deriving DecidableEq, Repr

/-- The assembler's mnemonics: the 22 commands (R67) and the nine pseudo-instructions (R74). -/
inductive Mnemonic where
  | and | or | xor | not
  | eq | ne | lt | le | gt | ge
  | add | addc | sub | neg
  | shl | lsr | shlw | lsrw
  | mul | mulf
  | udivrem | sdivrem
  | mov | inc | dec | tstz | div | mod | sdiv | smod | mulh
deriving DecidableEq, Repr

/-- One operand as written: `#num`, `R0`, `R1` or `zx(num)` (R73). -/
inductive AsmOperand where
  | num (v : Nat)
  | r0
  | r1
  | zx (v : Nat)
deriving DecidableEq, Repr

/-- One line of assembler text (R73). -/
structure AsmLine where
  mnemonic : Mnemonic
  operands : List AsmOperand
deriving DecidableEq, Repr

end Sys2Proof
end

