-- ==== Sys2Proof/Word.lean ====
section
/-! DEFINITION. Sys2Proof/Word.lean: the fixed-width words of the block's ports (spec/10_state.md R20). -/

namespace Sys2Proof

/-- The 16-bit command word of the CMD port (R20, R60). -/
abbrev CommandWord := BitVec 16

/-- The 64-bit scalar of the S port (R20). -/
abbrev Scalar := BitVec 64

/-- One byte of the host's byte image (R50). -/
abbrev Byte := BitVec 8

end Sys2Proof
end

