-- ==== Sys2Proof/Decode.lean ====
section
/-! DEFINITION. Sys2Proof/Decode.lean: the decoder, total on every 16-bit command word and rejecting by name, the encoder
beside it, and the opcode table as rows of mask and match (spec/30_encoding.md R60 to R72, spec/opcode_table.json). -/

namespace Sys2Proof

/-- CMD[15:10], RSV (R60). -/
def rsvField (w : CommandWord) : BitVec 6 := w.extractLsb' 10 6

/-- CMD[9:8], BSEL (R60). -/
def bselField (w : CommandWord) : BitVec 2 := w.extractLsb' 8 2

/-- CMD[7:6], ASEL (R60). -/
def aselField (w : CommandWord) : BitVec 2 := w.extractLsb' 6 2

/-- CMD[5:0], OPC (R60). -/
def opcField (w : CommandWord) : BitVec 6 := w.extractLsb' 0 6

/-- Why a command word is illegal: the four conditions of R69. -/
inductive Illegal where
  /-- RSV is not 0 (item 1, R62). -/
  | rsv
  /-- OPC is reserved (item 2). -/
  | opc
  /-- ASEL is 3 (item 3). -/
  | asel
  /-- BSEL is not 0 on a command that does not read B (item 4, R68). -/
  | bsel
deriving DecidableEq, Repr

/-- ASEL (R63): 3 is reserved. -/
def decodeASel (v : BitVec 2) : Option ASel :=
  match v.toNat with
  | 0 => some .port
  | 1 => some .r0
  | 2 => some .r1
  | _ => none

/-- BSEL (R64): all four values are assigned. -/
def decodeBSel (v : BitVec 2) : BSel :=
  match v.toNat with
  | 0 => .port
  | 1 => .r0
  | 2 => .r1
  | _ => .zextS

/-- An assigned opcode's command, still without its selectors: "reads B" of R67 is the choice of constructor. -/
inductive Form where
  | readsAB (mk : ASel → BSel → Instr)
  | readsA (mk : ASel → Instr)

/-- The opcode map (R67). Every other value is reserved (R69 item 2). -/
def opcodeForm (opc : BitVec 6) : Option Form :=
  match opc.toNat with
  | 0x01 => some (.readsAB .and)
  | 0x02 => some (.readsAB .or)
  | 0x03 => some (.readsAB .xor)
  | 0x04 => some (.readsA .not)
  | 0x08 => some (.readsAB .eq)
  | 0x09 => some (.readsAB .ne)
  | 0x0A => some (.readsAB .lt)
  | 0x0B => some (.readsAB .le)
  | 0x0C => some (.readsAB .gt)
  | 0x0D => some (.readsAB .ge)
  | 0x10 => some (.readsAB .add)
  | 0x11 => some (.readsAB .addc)
  | 0x12 => some (.readsAB .sub)
  | 0x13 => some (.readsA .neg)
  | 0x18 => some (.readsA .shl)
  | 0x19 => some (.readsA .lsr)
  | 0x1A => some (.readsAB .shlw)
  | 0x1B => some (.readsAB .lsrw)
  | 0x20 => some (.readsAB .mul)
  | 0x21 => some (.readsAB .mulf)
  | 0x28 => some (.readsAB .udivrem)
  | 0x29 => some (.readsAB .sdivrem)
  | _ => none

/-- The decoder, its checks in the order of R66. -/
def decode (w : CommandWord) : Except Illegal Instr :=
  if rsvField w ≠ 0 then .error .rsv
  else
    match opcodeForm (opcField w) with
    | none => .error .opc
    | some form =>
      match decodeASel (aselField w) with
      | none => .error .asel
      | some a =>
        match form with
        | .readsAB mk => .ok (mk a (decodeBSel (bselField w)))
        | .readsA mk => if bselField w = 0 then .ok (mk a) else .error .bsel

/-- The instruction the decoder reads from the word whose bits are `w`. A command is 16 bits and travels whole on the CMD
port, so there is no byte order to choose (R60, R71); a number of more than 16 bits is no command word. -/
def decodeTableWord (nbits w : Nat) : Option Instr :=
  if w % 2 ^ nbits < 2 ^ 16 then (decode (BitVec.ofNat 16 (w % 2 ^ nbits))).toOption else none

/-! ## The encoder -/

/-- The command's operand A selector: every command reads opA (R63). -/
def Instr.asel : Instr → ASel
  | .and a _ | .or a _ | .xor a _ | .not a => a
  | .eq a _ | .ne a _ | .lt a _ | .le a _ | .gt a _ | .ge a _ => a
  | .add a _ | .addc a _ | .sub a _ | .neg a => a
  | .shl a | .lsr a | .shlw a _ | .lsrw a _ => a
  | .mul a _ | .mulf a _ => a
  | .udivrem a _ | .sdivrem a _ => a

/-- The command's operand B selector, none for a command that does not read B (R64, R67). -/
def Instr.bsel : Instr → Option BSel
  | .and _ b | .or _ b | .xor _ b => some b
  | .eq _ b | .ne _ b | .lt _ b | .le _ b | .gt _ b | .ge _ b => some b
  | .add _ b | .addc _ b | .sub _ b => some b
  | .shlw _ b | .lsrw _ b => some b
  | .mul _ b | .mulf _ b => some b
  | .udivrem _ b | .sdivrem _ b => some b
  | .not _ | .neg _ | .shl _ | .lsr _ => none

/-- The opcode of a command (R67). -/
def Instr.opcode : Instr → BitVec 6
  | .and _ _ => 0x01
  | .or _ _ => 0x02
  | .xor _ _ => 0x03
  | .not _ => 0x04
  | .eq _ _ => 0x08
  | .ne _ _ => 0x09
  | .lt _ _ => 0x0A
  | .le _ _ => 0x0B
  | .gt _ _ => 0x0C
  | .ge _ _ => 0x0D
  | .add _ _ => 0x10
  | .addc _ _ => 0x11
  | .sub _ _ => 0x12
  | .neg _ => 0x13
  | .shl _ => 0x18
  | .lsr _ => 0x19
  | .shlw _ _ => 0x1A
  | .lsrw _ _ => 0x1B
  | .mul _ _ => 0x20
  | .mulf _ _ => 0x21
  | .udivrem _ _ => 0x28
  | .sdivrem _ _ => 0x29

/-- The ASEL bits of a selector (R63). -/
def ASel.bits : ASel → BitVec 2
  | .port => 0
  | .r0 => 1
  | .r1 => 2

/-- The BSEL bits of a selector (R64). -/
def BSel.bits : BSel → BitVec 2
  | .port => 0
  | .r0 => 1
  | .r1 => 2
  | .zextS => 3

/-- The word with the four fields of R60, most significant first. -/
def packFields (rsv : BitVec 6) (bsel asel : BitVec 2) (opc : BitVec 6) : CommandWord :=
  rsv ++ bsel ++ asel ++ opc

/-- The encoder: RSV 0 (R62), BSEL 0 where B is not read (R68). -/
def encode (i : Instr) : CommandWord :=
  packFields 0 ((i.bsel.map BSel.bits).getD 0) i.asel.bits i.opcode

/-! ## The opcode table -/

/-- A row of spec/opcode_table.json: a word belongs to it when `w &&& mask = pattern`. -/
structure Row where
  mnemonic : String
  pattern : CommandWord
  mask : CommandWord
deriving DecidableEq, Repr

/-- The mask of a row that reads B: RSV and OPC are fixed. -/
def maskAB : CommandWord := 0xFC3F

/-- The mask of a row that does not read B: BSEL is fixed too (R68). -/
def maskA : CommandWord := 0xFF3F

/-- spec/opcode_table.json, row by row. -/
def opcodeTable : List Row :=
  [⟨"AND", 0x0001, maskAB⟩, ⟨"OR", 0x0002, maskAB⟩, ⟨"XOR", 0x0003, maskAB⟩, ⟨"NOT", 0x0004, maskA⟩] ++
  [⟨"EQ", 0x0008, maskAB⟩, ⟨"NE", 0x0009, maskAB⟩, ⟨"LT", 0x000A, maskAB⟩, ⟨"LE", 0x000B, maskAB⟩,
   ⟨"GT", 0x000C, maskAB⟩, ⟨"GE", 0x000D, maskAB⟩] ++
  [⟨"ADD", 0x0010, maskAB⟩, ⟨"ADDC", 0x0011, maskAB⟩, ⟨"SUB", 0x0012, maskAB⟩, ⟨"NEG", 0x0013, maskA⟩] ++
  [⟨"SHL", 0x0018, maskA⟩, ⟨"LSR", 0x0019, maskA⟩, ⟨"SHLW", 0x001A, maskAB⟩, ⟨"LSRW", 0x001B, maskAB⟩] ++
  [⟨"MUL", 0x0020, maskAB⟩, ⟨"MULF", 0x0021, maskAB⟩] ++
  [⟨"UDIVREM", 0x0028, maskAB⟩, ⟨"SDIVREM", 0x0029, maskAB⟩]

/-- Whether a word belongs to a row (R72). -/
def Row.covers (r : Row) (w : CommandWord) : Bool := w &&& r.mask == r.pattern

/-- The mnemonic of a command as the table spells it (R67). -/
def Instr.mnemonic : Instr → String
  | .and _ _ => "AND"
  | .or _ _ => "OR"
  | .xor _ _ => "XOR"
  | .not _ => "NOT"
  | .eq _ _ => "EQ"
  | .ne _ _ => "NE"
  | .lt _ _ => "LT"
  | .le _ _ => "LE"
  | .gt _ _ => "GT"
  | .ge _ _ => "GE"
  | .add _ _ => "ADD"
  | .addc _ _ => "ADDC"
  | .sub _ _ => "SUB"
  | .neg _ => "NEG"
  | .shl _ => "SHL"
  | .lsr _ => "LSR"
  | .shlw _ _ => "SHLW"
  | .lsrw _ _ => "LSRW"
  | .mul _ _ => "MUL"
  | .mulf _ _ => "MULF"
  | .udivrem _ _ => "UDIVREM"
  | .sdivrem _ _ => "SDIVREM"

end Sys2Proof
end

