-- ==== Sys2Proof/Machine/Flags.lean ====
section
/-! DEFINITION. Sys2Proof/Machine/Flags.lean: every value a command writes to CF (spec/10_state.md R25): the carry-out of
ADDC (spec/41_adder.md R101, R103) and the six comparisons (spec/40_compare_bitwise.md R86, R91 to R96). All comparisons
are unsigned. -/

namespace Sys2Proof.Machine

/-- The carry-out: 1 when a + b reaches 2^n (R25, R101). -/
def carryOut {n : Nat} (x y : BitVec n) : Bool := decide (2 ^ n ≤ x.toNat + y.toNat)

/-- eq_N (R86). -/
def eqFlag {n : Nat} (x y : BitVec n) : Bool := decide (x.toNat = y.toNat)

/-- lt_N (R86). -/
def ltFlag {n : Nat} (x y : BitVec n) : Bool := decide (x.toNat < y.toNat)

/-- NE derives from EQ (R92). -/
def neFlag {n : Nat} (x y : BitVec n) : Bool := !eqFlag x y

/-- LE derives from LT and EQ (R94). -/
def leFlag {n : Nat} (x y : BitVec n) : Bool := ltFlag x y || eqFlag x y

/-- GT swaps the operands into LT (R95). -/
def gtFlag {n : Nat} (x y : BitVec n) : Bool := ltFlag y x

/-- GE derives from LT (R96). -/
def geFlag {n : Nat} (x y : BitVec n) : Bool := !ltFlag x y

end Sys2Proof.Machine
end

