-- ==== Sys2Proof/Config.lean ====
section
/-! DEFINITION. Sys2Proof/Config.lean: the implementation parameters of an instance (spec/00_scope.md R4, R6).
There is no free value here: no command of this block has an open result (assumption 18). -/

namespace Sys2Proof.Config

/-- W, the native word width in bits (R6). -/
def wordBits : Nat := 64

/-- P, the width of the base primitive in bits (R6, R7). -/
def baseBits : Nat := 128

/-- N, the operand width of the instance with width exponent `e`: `e` ranges over all naturals and `N` over exactly the
powers of two of at least 128 (R4). -/
def width (e : Nat) : Nat := 2 ^ (7 + e)

/-- H, the limb width N / 2 (R6). -/
def half (e : Nat) : Nat := width e / 2

/-- K, the number of 64-bit words in an N-bit value (R6). -/
def words (e : Nat) : Nat := width e / wordBits

/-- DESIGN CHOICE, assumption 1: the width exponent of the instance that `State.reset` describes, N = 256, the width of
the spec's test vectors (R4). Every meaning and every statement is for every exponent. -/
def buildExp : Nat := 1

end Sys2Proof.Config
end

