-- ==== Sys2Proof/Machine/State.lean ====
section
/-! DEFINITION. Sys2Proof/Machine/State.lean: the block's state as plain data (spec/10_state.md R20 to R34), the host's
pending interactions (spec/70_reset_and_hazards.md R198), the reasons a step could stop, and the state after reset. -/

namespace Sys2Proof.Machine

/-- The values the host drives on the four input ports, as sampled once at the start of a command (R20, R197), for an
instance of width `n`. -/
structure Ports (n : Nat) where
  cmd : CommandWord
  a : BitVec n
  b : BitVec n
  s : Scalar
deriving DecidableEq, Repr

/-- One interaction of the host with the block (R198). -/
inductive HostAction (n : Nat) where
  /-- Present a command: drive the ports and start (R197). -/
  | command (p : Ports n)
  /-- Assert reset between commands (R190). -/
  | reset
  /-- Present a command and assert reset while it is in progress (R191). -/
  | resetDuring (p : Ports n)
  /-- Read R0, R1, CF and ST on the output ports (R51). -/
  | read
deriving DecidableEq, Repr

/-- ST.CODE, the outcome of the last command (R29, R170). -/
inductive Code where
  | ok
  | divz
  | illegal
  | undefOperand
deriving DecidableEq, Repr

/-- The block's three faults (R170). Each is a NEXT state of the model (R172, R177). -/
inductive BlockFault where
  | divz
  | illegal
  | undefOperand
deriving DecidableEq, Repr

/-- The whole state. `r0` to `uos` are the record of R34, with ST.CODE as a type of its four names; `wexp` is the
instance's build parameter (R4); `ports` and `pending` are the model's own fields and hold the inputs of a step
(assumptions 2 and 3). -/
structure State where
  /-- Width exponent: N = 2^(7 + wexp) (R4). -/
  wexp : Nat
  /-- R0; `none` exactly when R0V = 0 (R21, R28). -/
  r0 : Option (BitVec (Config.width wexp))
  /-- R1; `none` exactly when R1V = 0 (R22, R28). -/
  r1 : Option (BitVec (Config.width wexp))
  /-- CF; `none` exactly when CFV = 0 (R25, R28). -/
  cf : Option Bool
  /-- ST.CODE (R29). -/
  code : Code
  /-- ST.DZS (R29). -/
  dzs : Bool
  /-- ST.ILS (R29). -/
  ils : Bool
  /-- ST.UOS (R29). -/
  uos : Bool
  /-- The sampled port values of the running command (R20, R197). -/
  ports : Ports (Config.width wexp)
  /-- The interactions the host has yet to present, the next one first (R26, R198). -/
  pending : List (HostAction (Config.width wexp))
deriving DecidableEq, Repr

/-- N of this instance (R4). -/
abbrev State.width (s : State) : Nat := Config.width s.wexp

/-- Why the machine stops. It has NO constructor: no behaviour of this block is stuck, every command completes
(spec/93_implementation_defined.md, R196), and the block's own faults are next states (`BlockFault`, R172). -/
inductive Fault where
deriving DecidableEq, Repr

/-- Why the model gives an instruction no meaning. -/
inductive Refusal where
  /-- Raised only by an arm of `exec` that rejects its command by name; no arm does. Safe: the model stops. -/
  | notModelled (mnemonic : String)
deriving DecidableEq, Repr

/-- What a command or a step answers. -/
abbrev Result := Host.Outcome State Fault Refusal

/-- The state of an instance of width exponent `e` right after reset (R31, R190): every valid bit 0, ST = 0x00. The
sampled ports (zero, never read before a command overwrites them) and the empty list of interactions are the model's own
(assumptions 2 and 3). -/
def State.resetAt (e : Nat) : State where
  wexp := e
  r0 := none
  r1 := none
  cf := none
  code := .ok
  dzs := false
  ils := false
  uos := false
  ports := ⟨0, 0, 0, 0⟩
  pending := []

/-- The state right after reset of the instance of assumption 1 (N = 256). -/
def State.reset : State := State.resetAt Config.buildExp

end Sys2Proof.Machine
end

