-- ==== Sys2Proof/Machine/Ops.lean ====
section
/-! DEFINITION. Sys2Proof/Machine/Ops.lean: the shared operations on the block's registers: register writes with their
valid bits (spec/10_state.md R28), the end of a command (R30), raising a fault (spec/60_exceptions.md R172), reset
(spec/70_reset_and_hazards.md R190), the status register as its byte (R29), and the host's view (R28, R51). The block has
no return from a fault (R177), so there is no operation beside `raise` that undoes it. -/

namespace Sys2Proof.Machine

/-! ## Register writes -/

/-- `R0 <- v; R0V <- 1` (R21, R28). -/
def State.writeR0 (s : State) (v : BitVec s.width) : State := { s with r0 := some v }

/-- `R1 <- v; R1V <- 1` (R22, R28). -/
def State.writeR1 (s : State) (v : BitVec s.width) : State := { s with r1 := some v }

/-- `R0 <- lo; R1 <- hi; R0V <- 1; R1V <- 1`, the two results of one command (R24). -/
def State.writePair (s : State) (v0 v1 : BitVec s.width) : State := { s with r0 := some v0, r1 := some v1 }

/-- `CF <- c; CFV <- 1` (R25, R28). -/
def State.writeCf (s : State) (c : Bool) : State := { s with cf := some c }

/-! ## The end of a command -/

/-- R30 with code 0: the command completed. -/
def State.complete (s : State) : State := { s with code := .ok }

/-- The code a fault writes to ST.CODE (R170). -/
def BlockFault.code : BlockFault → Code
  | .divz => .divz
  | .illegal => .illegal
  | .undefOperand => .undefOperand

/-- Taking a fault, the block's whole trap entry (R172): ST.CODE and the fault's sticky bit, nothing else. No pc, mode,
mask or saved register exists. -/
def State.raise (s : State) (f : BlockFault) : State :=
  { s with
    code := f.code
    dzs := s.dzs || f == .divz
    ils := s.ils || f == .illegal
    uos := s.uos || f == .undefOperand }

/-- Reset of the block (R190): valid bits and ST cleared. The host's pending interactions are not the block's and stay. -/
def State.resetBlock (s : State) : State :=
  { s with
    r0 := none
    r1 := none
    cf := none
    code := .ok
    dzs := false
    ils := false
    uos := false }

/-- The ports are sampled once, at the start of a command (R20, R197). -/
def State.sample (s : State) (p : Ports s.width) : State := { s with ports := p }

/-! ## The status register and the host's view -/

/-- R0V (R28). -/
def State.r0v (s : State) : Bool := s.r0.isSome

/-- R1V (R28). -/
def State.r1v (s : State) : Bool := s.r1.isSome

/-- CFV (R28). -/
def State.cfv (s : State) : Bool := s.cf.isSome

/-- The number of a code (R29, R170). -/
def Code.bits : Code → BitVec 2
  | .ok => 0
  | .divz => 1
  | .illegal => 2
  | .undefOperand => 3

/-- ST as its 8-bit register (R29): CFV, R1V, R0V, UOS, ILS, DZS, CODE, most significant first. The mirrors are functions
of the valid bits (R34). -/
def State.st (s : State) : BitVec 8 :=
  BitVec.ofBool s.cfv ++ BitVec.ofBool s.r1v ++ BitVec.ofBool s.r0v
    ++ BitVec.ofBool s.uos ++ BitVec.ofBool s.ils ++ BitVec.ofBool s.dzs ++ s.code.bits

/-- What a host read gives (R198): each register's value, or none where its valid bit is 0 (R28), and ST. -/
structure HostView where
  r0 : Option Nat
  r1 : Option Nat
  cf : Option Bool
  st : BitVec 8
deriving DecidableEq, Repr

/-- The output ports as the host reads them (R28, R51). -/
def State.view (s : State) : HostView where
  r0 := s.r0.map BitVec.toNat
  r1 := s.r1.map BitVec.toNat
  cf := s.cf
  st := s.st

end Sys2Proof.Machine
end

