-- ==== Sys2Proof/Machine/Operands.lean ====
section
/-! DEFINITION. Sys2Proof/Machine/Operands.lean: operand selection (spec/30_encoding.md R63, R64) and its fault
UNDEF_OPERAND (spec/60_exceptions.md R171). A meaning computes from the operands read here, all of them before it writes
(R65). -/

namespace Sys2Proof.Machine

/-- opA (R63); `none` where ASEL selects a result register whose valid bit is 0. -/
def State.opA (s : State) : ASel → Option (BitVec s.width)
  | .port => some s.ports.a
  | .r0 => s.r0
  | .r1 => s.r1

/-- zext_N(S): the scalar in bits [63:0], zeros above (R48, R64). -/
def State.scalarOperand (s : State) : BitVec s.width := s.ports.s.setWidth s.width

/-- opB (R64); `none` where BSEL selects a result register whose valid bit is 0. -/
def State.opB (s : State) : BSel → Option (BitVec s.width)
  | .port => some s.ports.b
  | .r0 => s.r0
  | .r1 => s.r1
  | .zextS => some s.scalarOperand

/-- A command that reads opA alone: UNDEF_OPERAND where it is not valid (R66 step 2, R171), else the command's effect. -/
def withA (s : State) (a : ASel) (effect : BitVec s.width → State) : Result :=
  match s.opA a with
  | none => .next (s.raise .undefOperand)
  | some x => .next (effect x)

/-- A command that reads opA and opB: UNDEF_OPERAND where either is not valid (R66 step 2, R171), else the command's
effect. -/
def withAB (s : State) (a : ASel) (b : BSel) (effect : BitVec s.width → BitVec s.width → State) : Result :=
  match s.opA a, s.opB b with
  | some x, some y => .next (effect x y)
  | none, _ => .next (s.raise .undefOperand)
  | some _, none => .next (s.raise .undefOperand)

end Sys2Proof.Machine
end

