-- ==== Sys2Proof/Machine/Adder.lean ====
section
/-! DEFINITION. Sys2Proof/Machine/Adder.lean: ADD, ADDC, SUB and NEG (spec/41_adder.md R101 to R105), modulo 2^N. Only ADDC
writes CF; overflow is never a fault. -/

namespace Sys2Proof.Machine

/-- The sum of `addc_N`, by its value (R101). -/
def sum {n : Nat} (x y : BitVec n) : BitVec n := x + y

/-- neg_N (R105): the complement plus one. -/
def negate {n : Nat} (x : BitVec n) : BitVec n := sum (~~~x) 1#n

/-- SUB's value (R104): the sum with the negation. -/
def difference {n : Nat} (x y : BitVec n) : BitVec n := sum x (negate y)

/-- ADD (R102): the carry is discarded, CF unchanged. -/
def execAdd (a : ASel) (b : BSel) (s : State) : Result :=
  withAB s a b fun x y => (s.writeR0 (sum x y)).complete

/-- ADDC (R103): the sum to R0, the carry-out to CF. -/
def execAddc (a : ASel) (b : BSel) (s : State) : Result :=
  withAB s a b fun x y => ((s.writeR0 (sum x y)).writeCf (carryOut x y)).complete

/-- SUB (R104): no borrow output, CF unchanged. -/
def execSub (a : ASel) (b : BSel) (s : State) : Result :=
  withAB s a b fun x y => (s.writeR0 (difference x y)).complete

/-- NEG (R105). -/
def execNeg (a : ASel) (s : State) : Result :=
  withA s a fun x => (s.writeR0 (negate x)).complete

end Sys2Proof.Machine
end

