-- ==== Sys2Proof/Machine/Bitwise.lean ====
section
/-! DEFINITION. Sys2Proof/Machine/Bitwise.lean: AND, OR, XOR and NOT (spec/40_compare_bitwise.md R85, R87 to R90). They
write R0 only. -/

namespace Sys2Proof.Machine

/-- AND (R87): `R0 <- opA & opB`. -/
def execAnd (a : ASel) (b : BSel) (s : State) : Result :=
  withAB s a b fun x y => (s.writeR0 (x &&& y)).complete

/-- OR (R88): `R0 <- opA | opB`. -/
def execOr (a : ASel) (b : BSel) (s : State) : Result :=
  withAB s a b fun x y => (s.writeR0 (x ||| y)).complete

/-- XOR (R89): `R0 <- opA ^ opB`. -/
def execXor (a : ASel) (b : BSel) (s : State) : Result :=
  withAB s a b fun x y => (s.writeR0 (x ^^^ y)).complete

/-- NOT (R90): `R0 <- ~_N opA`. -/
def execNot (a : ASel) (s : State) : Result :=
  withA s a fun x => (s.writeR0 (~~~x)).complete

end Sys2Proof.Machine
end

