-- ==== Sys2Proof/Machine/Compare.lean ====
section
/-! DEFINITION. Sys2Proof/Machine/Compare.lean: EQ, NE, LT, LE, GT and GE (spec/40_compare_bitwise.md R91 to R96). They
write CF only. -/

namespace Sys2Proof.Machine

/-- EQ (R91). -/
def execEq (a : ASel) (b : BSel) (s : State) : Result :=
  withAB s a b fun x y => (s.writeCf (eqFlag x y)).complete

/-- NE (R92). -/
def execNe (a : ASel) (b : BSel) (s : State) : Result :=
  withAB s a b fun x y => (s.writeCf (neFlag x y)).complete

/-- LT (R93), unsigned. -/
def execLt (a : ASel) (b : BSel) (s : State) : Result :=
  withAB s a b fun x y => (s.writeCf (ltFlag x y)).complete

/-- LE (R94), unsigned. -/
def execLe (a : ASel) (b : BSel) (s : State) : Result :=
  withAB s a b fun x y => (s.writeCf (leFlag x y)).complete

/-- GT (R95), unsigned. -/
def execGt (a : ASel) (b : BSel) (s : State) : Result :=
  withAB s a b fun x y => (s.writeCf (gtFlag x y)).complete

/-- GE (R96), unsigned. -/
def execGe (a : ASel) (b : BSel) (s : State) : Result :=
  withAB s a b fun x y => (s.writeCf (geFlag x y)).complete

end Sys2Proof.Machine
end

