-- ==== Sys2Proof/Machine/Divider.lean ====
section
/-! DEFINITION. Sys2Proof/Machine/Divider.lean: UDIVREM and SDIVREM (spec/44_divider.md R145, R155 to R158), by the value
rules R145 and R155, as R160 asks of a model. -/

namespace Sys2Proof.Machine

/-- A quotient and a remainder, the source's DivResult (R13). -/
structure DivResult (n : Nat) where
  quot : BitVec n
  rem : BitVec n
deriving DecidableEq, Repr

/-- udivrem_N (R145), used for a divisor that is not 0. -/
def udivrem {n : Nat} (u v : BitVec n) : DivResult n where
  quot := u / v
  rem := u % v

/-- The magnitude of a two's-complement value (R155). -/
def magnitude {n : Nat} (x : BitVec n) : BitVec n := if x.msb then negate x else x

/-- `negate` under a condition (R155). -/
def negateIf {n : Nat} (c : Bool) (x : BitVec n) : BitVec n := if c then negate x else x

/-- sdivrem_N (R155), used for a divisor that is not 0: divide the magnitudes; the quotient is negated if exactly one
operand is negative, the remainder takes the dividend's sign. MIN / -1 wraps to MIN. -/
def sdivrem {n : Nat} (u v : BitVec n) : DivResult n :=
  let d := udivrem (magnitude u) (magnitude v)
  { quot := negateIf (u.msb != v.msb) d.quot
    rem := negateIf u.msb d.rem }

/-- DIVZ for a zero divisor (R158, R174), else the quotient to R0 and the remainder to R1. -/
def divide (s : State) (v : BitVec s.width) (result : DivResult s.width) : State :=
  if v = 0 then s.raise .divz else (s.writePair result.quot result.rem).complete

/-- UDIVREM (R156). -/
def execUdivrem (a : ASel) (b : BSel) (s : State) : Result :=
  withAB s a b fun u v => divide s v (udivrem u v)

/-- SDIVREM (R157): signed overflow (MIN / -1) is neither flagged nor trapped. -/
def execSdivrem (a : ASel) (b : BSel) (s : State) : Result :=
  withAB s a b fun u v => divide s v (sdivrem u v)

end Sys2Proof.Machine
end

