-- ==== Sys2Proof/Machine/Multiplier.lean ====
section
/-! DEFINITION. Sys2Proof/Machine/Multiplier.lean: MUL and MULF (spec/43_multiplier.md R130, R133, R134), by the value rule
R130, as R141 asks of a model. Both are unsigned and neither writes CF. -/

namespace Sys2Proof.Machine

/-- The low N bits of fmul_N, which are tmul_N (R130). -/
def productLow {n : Nat} (x y : BitVec n) : BitVec n := BitVec.ofNat n (x.toNat * y.toNat)

/-- The high N bits of fmul_N (R130, R139). -/
def productHigh {n : Nat} (x y : BitVec n) : BitVec n := BitVec.ofNat n (x.toNat * y.toNat / 2 ^ n)

/-- MUL (R134): R1 and CF unchanged. -/
def execMul (a : ASel) (b : BSel) (s : State) : Result :=
  withAB s a b fun x y => (s.writeR0 (productLow x y)).complete

/-- MULF (R133): the low half to R0, the high half to R1. -/
def execMulf (a : ASel) (b : BSel) (s : State) : Result :=
  withAB s a b fun x y => (s.writePair (productLow x y) (productHigh x y)).complete

end Sys2Proof.Machine
end

