-- ==== Sys2Proof/Machine/Shifter.lean ====
section
/-! DEFINITION. Sys2Proof/Machine/Shifter.lean: SHL, LSR, SHLW and LSRW (spec/42_shifter.md R115, R120 to R124), by the
value rule R115, as R127 asks of a model. A shift amount is never a fault. -/

namespace Sys2Proof.Machine

/-- shl_N (R115): the amount is checked, never a shift by the full width or more. -/
def shiftLeft {n : Nat} (x : BitVec n) (amount : Nat) : BitVec n := if amount < n then x <<< amount else 0#n

/-- lsr_N (R115): the amount is checked, never a shift by the full width or more. -/
def shiftRight {n : Nat} (x : BitVec n) (amount : Nat) : BitVec n := if amount < n then x >>> amount else 0#n

/-- SHL (R121): the amount is the S port, unsigned. -/
def execShl (a : ASel) (s : State) : Result :=
  withA s a fun x => (s.writeR0 (shiftLeft x s.ports.s.toNat)).complete

/-- LSR (R122): the amount is the S port, unsigned. -/
def execLsr (a : ASel) (s : State) : Result :=
  withA s a fun x => (s.writeR0 (shiftRight x s.ports.s.toNat)).complete

/-- SHLW (R123): the amount is opB, all N bits of it, in the value form that R120 calls normative (assumption 11). -/
def execShlw (a : ASel) (b : BSel) (s : State) : Result :=
  withAB s a b fun x y => (s.writeR0 (shiftLeft x y.toNat)).complete

/-- LSRW (R124): the amount is opB, all N bits of it, in the value form that R120 calls normative (assumption 11). -/
def execLsrw (a : ASel) (b : BSel) (s : State) : Result :=
  withAB s a b fun x y => (s.writeR0 (shiftRight x y.toNat)).complete

end Sys2Proof.Machine
end

