-- ==== Sys2Proof/Machine/Dispatch.lean ====
section
/-! DEFINITION. Sys2Proof/Machine/Dispatch.lean: one arm per command, each a direct call of its meaning. -/

namespace Sys2Proof.Machine

/-- Step 2 and 3 of the model's step function (spec/30_encoding.md R66): the operands and the effect of a decoded
command, on the port values in the state. -/
def exec (i : Instr) (s : State) : Host.Outcome State Fault Refusal :=
  match i with
  | .and a b => Sys2Proof.Machine.execAnd a b s
  | .or a b => Sys2Proof.Machine.execOr a b s
  | .xor a b => Sys2Proof.Machine.execXor a b s
  | .not a => Sys2Proof.Machine.execNot a s
  | .eq a b => Sys2Proof.Machine.execEq a b s
  | .ne a b => Sys2Proof.Machine.execNe a b s
  | .lt a b => Sys2Proof.Machine.execLt a b s
  | .le a b => Sys2Proof.Machine.execLe a b s
  | .gt a b => Sys2Proof.Machine.execGt a b s
  | .ge a b => Sys2Proof.Machine.execGe a b s
  | .add a b => Sys2Proof.Machine.execAdd a b s
  | .addc a b => Sys2Proof.Machine.execAddc a b s
  | .sub a b => Sys2Proof.Machine.execSub a b s
  | .neg a => Sys2Proof.Machine.execNeg a s
  | .shl a => Sys2Proof.Machine.execShl a s
  | .lsr a => Sys2Proof.Machine.execLsr a s
  | .shlw a b => Sys2Proof.Machine.execShlw a b s
  | .lsrw a b => Sys2Proof.Machine.execLsrw a b s
  | .mul a b => Sys2Proof.Machine.execMul a b s
  | .mulf a b => Sys2Proof.Machine.execMulf a b s
  | .udivrem a b => Sys2Proof.Machine.execUdivrem a b s
  | .sdivrem a b => Sys2Proof.Machine.execSdivrem a b s

end Sys2Proof.Machine
end

