-- ==== Sys2Proof/Machine/Command.lean ====
section
/-! DEFINITION. Sys2Proof/Machine/Command.lean: what one interaction of the host does to the block
(spec/70_reset_and_hazards.md R190, R191, R197, R198): a presented command is sampled, decoded and run or faults ILLEGAL
(spec/30_encoding.md R66). -/

namespace Sys2Proof.Machine

/-- The command on the sampled ports: an illegal word faults ILLEGAL before anything is read (R66 step 1, R69, R173). -/
def runCommand (s : State) : Result :=
  match decode s.ports.cmd with
  | .error _ => .next (s.raise .illegal)
  | .ok i => exec i s

/-- One interaction (R198). A reset during a command abandons it: it writes nothing (R191). A read changes nothing
(R51); what it gives is `State.view`. -/
def applyAction (s : State) : HostAction s.width → Result
  | .command p => runCommand (s.sample p)
  | .reset => .next s.resetBlock
  | .resetDuring p => .next (s.sample p).resetBlock
  | .read => .next s

/-- With nothing presented the block waits and holds its state (R186, R190). -/
def idle (s : State) : Result := .next s

/-- The command word in the low bits of a number, with 0 on the other ports (assumption 9). -/
def portsOfWord (n nbits w : Nat) : Ports n := ⟨BitVec.ofNat 16 (w % 2 ^ nbits), 0, 0, 0⟩

end Sys2Proof.Machine
end

