-- ==== Sys2Proof/Machine/Step.lean ====
section
/-! DEFINITION. Sys2Proof/Machine/Step.lean: one step is one interaction of the host (spec/30_encoding.md R66,
spec/20_memory.md R54, spec/70_reset_and_hazards.md R198). -/

namespace Sys2Proof.Machine

/-- Take the host's next interaction, or wait where there is none. -/
def step (s : State) : Host.Outcome State Fault Refusal :=
  match s.pending with
  | [] => idle s
  | act :: rest => applyAction { s with pending := rest } act

/-- The state in which the host presents the command word `w` next, with 0 on A, B and S. The block has no program
counter and no memory (R26, R45): the next command is the head of `pending`. -/
def State.withFetchWord (s : State) (nbits w : Nat) : State :=
  { s with pending := .command (portsOfWord s.width nbits w) :: s.pending }

end Sys2Proof.Machine
end

