-- ==== Sys2Proof/Machine/Values.lean ====
section
/-! DEFINITION. Sys2Proof/Machine/Values.lean: the pseudocode primitives of the spec on natural numbers
(spec/00_scope.md R8 to R10), used by the definitions of the units' internal algorithms. A w-bit value is a natural below
2^w and arithmetic is exact until a rule reduces it (R8). -/

namespace Sys2Proof.Machine

/-- `trunc_w(v)` (R8). -/
def trunc (w v : Nat) : Nat := v % 2 ^ w

/-- `b2i(c)` (R8). -/
def b2i (c : Bool) : Nat := if c then 1 else 0

/-- The field `v[lo+w-1:lo]`, `w` bits from bit `lo` up (R9). -/
def field (lo w v : Nat) : Nat := v / 2 ^ lo % 2 ^ w

/-- `concat` of R9, `a` above a `w`-bit `b`. -/
def concat (w a b : Nat) : Nat := a * 2 ^ w + b

/-- `x.lo` of a value with `h`-bit limbs (R9). -/
def limbLo (h x : Nat) : Nat := field 0 h x

/-- `x.hi` of a value with `h`-bit limbs (R9). -/
def limbHi (h x : Nat) : Nat := field h h x

/-- `word(x, j)`, word 0 the least significant (R9, R47). -/
def word (x j : Nat) : Nat := field (64 * j) 64 x

/-- The base b = 2^64 of the word algorithms (R147). -/
def wordBase : Nat := 2 ^ 64

/-- `nz_words(x)` of a value of `k` words: one more than the largest index of a word that is not 0 (R9). -/
def nzWords : Nat → Nat → Nat
  | 0, _ => 0
  | k + 1, x => if word x k ≠ 0 then k + 1 else nzWords k x

/-- The value of a word array, least significant word first (R47). -/
def fromWords : List Nat → Nat
  | [] => 0
  | w :: ws => w + wordBase * fromWords ws

/-- The value of the words `r 0` to `r (k-1)` (R47). -/
def sumWords (k : Nat) (r : Nat → Nat) : Nat := fromWords ((List.range k).map r)

/-- A `w`-bit result of a native operation: none where the exact value does not fit, so that a use of it that answers
something says that it never overflows (R131, R154; assumption 12). -/
def fits (w v : Nat) : Option Nat := if v < 2 ^ w then some v else none

/-- Entry `i` of a word array, 0 beyond its end. -/
def entry (l : List Nat) (i : Nat) : Nat := l.getD i 0

end Sys2Proof.Machine
end

