-- ==== Sys2Proof/Machine/AlgorithmD.lean ====
section
/-! DEFINITION. Sys2Proof/Machine/AlgorithmD.lean: the long-division engine's internal forms (spec/44_divider.md R146 to
R154): Knuth's Algorithm D on 64-bit words, short division and the fast paths. A definition answers none where an intermediate
value would not fit the 128-bit base primitive or a third trial correction would be needed, which R154 says never happens
(assumption 12), and where R147's preconditions fail. Quotient and remainder are a pair, quotient first. -/

namespace Sys2Proof.Machine

/-- `clz64` of a word that is not 0 (R148). -/
def clz64 (w : Nat) : Nat := 63 - Nat.log2 w

/-- What R148 gives: the normalized divisor and dividend and the shift amount. -/
structure Normalized where
  vn : List Nat
  un : List Nat
  shift : Nat
deriving DecidableEq, Repr

/-- The first `count` words of a value. -/
def wordList (count x : Nat) : List Nat := (List.range count).map (word x)

/-- `normalize(u, v)` (R148), with n = nz_words(v) and m = nz_words(u). The top word un[m] has the guard on a zero
shift. -/
def normalize (u v n m : Nat) : Normalized :=
  let s := clz64 (word v (n - 1))
  { vn := wordList n (v * 2 ^ s)
    un := wordList m (u * 2 ^ s) ++ [if s = 0 then 0 else word u (m - 1) / 2 ^ (64 - s)]
    shift := s }

/-- The condition of R149's loop: `qhat >= b or qhat * vn[n-2] > rhat * b + un[j+n-2]`, both products on the 128-bit
primitive. -/
def trialTooHigh (qhat rhat v2 u2 : Nat) : Option Bool := do
  let p ← fits 128 (qhat * v2)
  let t ← fits 128 (rhat * wordBase + u2)
  some (decide (wordBase ≤ qhat) || decide (t < p))

/-- R149's loop with at most `fuel` corrections, none where one more is wanted. -/
def correctTrial : Nat → Nat → Nat → Nat → Nat → Nat → Option Nat
  | 0, qhat, rhat, _, v2, u2 => do
    let high ← trialTooHigh qhat rhat v2 u2
    if high then none else some qhat
  | fuel + 1, qhat, rhat, v1, v2, u2 => do
    let high ← trialTooHigh qhat rhat v2 u2
    if high then
      if wordBase ≤ rhat + v1 then some (qhat - 1) else correctTrial fuel (qhat - 1) (rhat + v1) v1 v2 u2
    else some qhat

/-- `trial(un, vn, j, n)` (R149): the trial quotient word, corrected at most twice (R154). -/
def trialQuotient (un vn : List Nat) (j n : Nat) : Option Nat := do
  let num ← fits 128 (entry un (j + n) * wordBase + entry un (j + n - 1))
  let v1 := entry vn (n - 1)
  let qhat ← correctTrial 2 (num / v1) (num % v1) v1 (entry vn (n - 2)) (entry un (j + n - 2))
  fits 64 qhat

/-- The window of R150 with its carry and borrow. -/
structure Window where
  un : List Nat
  carry : Nat
  borrow : Nat
deriving DecidableEq, Repr

/-- `x - y` on one word with the borrow out (R150): the signed intermediate t, t mod b and b2i(t < 0). -/
def subtractWord (x y : Nat) : Nat × Nat :=
  let t : Int := (x : Int) - (y : Int)
  ((t % (wordBase : Int)).toNat, b2i (decide (t < 0)))

/-- One inner step of R150. -/
def mulSubStep (vn : List Nat) (j qhat : Nat) (w : Window) (i : Nat) : Option Window := do
  let p ← fits 128 (qhat * entry vn i + w.carry)
  let t := subtractWord (entry w.un (i + j)) (p % wordBase + w.borrow)
  some ⟨w.un.set (i + j) t.1, p / wordBase, t.2⟩

/-- `mulsub` (R150): the window and whether it borrowed. -/
def mulSub (un vn : List Nat) (j n qhat : Nat) : Option (List Nat × Nat) := do
  let w ← (List.range n).foldlM (mulSubStep vn j qhat) ⟨un, 0, 0⟩
  let t := subtractWord (entry w.un (j + n)) (w.carry + w.borrow)
  some (w.un.set (j + n) t.1, t.2)

/-- One inner step of R151's add-back. -/
def addBackStep (vn : List Nat) (j : Nat) (acc : List Nat × Nat) (i : Nat) : List Nat × Nat :=
  let t := entry acc.1 (i + j) + entry vn i + acc.2
  (acc.1.set (i + j) (t % wordBase), t / wordBase)

/-- R151's add-back: the final carry out of un[j+n] is discarded. -/
def addBack (un vn : List Nat) (j n : Nat) : List Nat :=
  let acc := (List.range n).foldl (addBackStep vn j) (un, 0)
  acc.1.set (j + n) ((entry acc.1 (j + n) + acc.2) % wordBase)

/-- `mulsub_addback` (R151): the window and the quotient word. -/
def mulSubAddBack (un vn : List Nat) (j n qhat : Nat) : Option (List Nat × Nat) := do
  let r ← mulSub un vn j n qhat
  if r.2 = 0 then some (r.1, qhat) else some (addBack r.1 vn j n, qhat - 1)

/-- The loop of R147, for j = count - 1 down to 0. The quotient words stand least significant first. -/
def quotientLoop (vn : List Nat) (n : Nat) : Nat → List Nat → List Nat → Option (List Nat × List Nat)
  | 0, un, q => some (un, q)
  | j + 1, un, q => do
    let qhat ← trialQuotient un vn j n
    let r ← mulSubAddBack un vn j n qhat
    quotientLoop vn n j r.1 (r.2 :: q)

/-- `denormalize(un, n, s)` (R152). -/
def denormalize (un : List Nat) (n s : Nat) : Nat := fromWords (un.take n) / 2 ^ s

/-- `udivrem_D(u, v)` (R147) on values of `k` words, under its preconditions u >= v and nz_words(v) >= 2. -/
def algorithmD (k u v : Nat) : Option (Nat × Nat) :=
  let n := nzWords k v
  let m := nzWords k u
  if u < v ∨ n < 2 then none else do
    let z := normalize u v n m
    let r ← quotientLoop z.vn n (m - n + 1) z.un []
    some (fromWords r.2, denormalize r.1 n z.shift)

/-- The loop of R153, for j = count - 1 down to 0. -/
def shortLoop (u v : Nat) : Nat → Nat → List Nat → Option (Nat × List Nat)
  | 0, r, q => some (r, q)
  | j + 1, r, q => do
    let num ← fits 128 (r * wordBase + word u j)
    let qj ← fits 64 (num / v)
    shortLoop u v j (num % v) (qj :: q)

/-- Short division by a one-word divisor (R153). -/
def shortDivision (k u v : Nat) : Option (Nat × Nat) := do
  let r ← shortLoop u v (nzWords k u) 0 []
  some (fromWords r.2, r.1)

/-- The four ways the engine may take (R146, R147); their order is free (spec/92_eei_decisions.md D27). -/
inductive DivPath where
  /-- v < 2^64: short division (R146 item 1, R153). -/
  | short
  /-- u < v: the quotient is 0 (R146 item 2). -/
  | below
  /-- v a power of two: a right shift and a bitmask (R146 item 3). -/
  | powerOfTwo
  /-- Algorithm D (R147). -/
  | general
deriving DecidableEq, Repr

/-- When a path may be taken on values of `k` words (R146, R147). -/
def DivPath.applies (k u v : Nat) : DivPath → Bool
  | .short => nzWords k v == 1
  | .below => decide (u < v)
  | .powerOfTwo => v == 2 ^ Nat.log2 v
  | .general => decide (v ≤ u) && decide (2 ≤ nzWords k v)

/-- What a path computes (R146, R147, R153). -/
def DivPath.divide (k u v : Nat) : DivPath → Option (Nat × Nat)
  | .short => shortDivision k u v
  | .below => some (0, u)
  | .powerOfTwo => some (u / 2 ^ Nat.log2 v, u &&& (v - 1))
  | .general => algorithmD k u v

end Sys2Proof.Machine
end

