-- ==== Sys2Proof/WellFormed.lean ====
section
/-! DEFINITION. Sys2Proof/WellFormed.lean: which command words are legal (spec/30_encoding.md R62, R68, R69) and which
assembler lines are well formed (R73). Both are written from the rules' own lists, apart from the decoder. A term of
`Instr` needs no check: its types hold only legal selectors. -/

namespace Sys2Proof

/-- The OPC field as a number (R60). -/
def opcNumber (w : CommandWord) : Nat := w.toNat % 64

/-- The ASEL field as a number (R60). -/
def aselNumber (w : CommandWord) : Nat := w.toNat / 64 % 4

/-- The BSEL field as a number (R60). -/
def bselNumber (w : CommandWord) : Nat := w.toNat / 256 % 4

/-- The RSV field as a number (R60). -/
def rsvNumber (w : CommandWord) : Nat := w.toNat / 1024

/-- The 42 reserved opcodes, by the ranges of R69 item 2. -/
def reservedOpcode (n : Nat) : Bool :=
  n == 0x00 || n == 0x05 || n == 0x06 || n == 0x07 || n == 0x0E || n == 0x0F || (0x14 ≤ n && n ≤ 0x17)
    || (0x1C ≤ n && n ≤ 0x1F) || (0x22 ≤ n && n ≤ 0x27) || (0x2A ≤ n && n ≤ 0x3F)

/-- The opcodes of NOT, NEG, SHL and LSR, which do not read B (R68). -/
def ignoresB (n : Nat) : Bool := n == 0x04 || n == 0x13 || n == 0x18 || n == 0x19

/-- A legal command word: none of the four conditions of R69 holds. -/
def legalWord (w : CommandWord) : Bool :=
  rsvNumber w == 0 && !reservedOpcode (opcNumber w) && aselNumber w != 3
    && !(ignoresB (opcNumber w) && bselNumber w != 0)

/-- `aop` of R73 at width `n`: `#num` with num < 2^n, `R0` or `R1`. -/
def AsmOperand.okA (n : Nat) : AsmOperand → Bool
  | .num v => decide (v < 2 ^ n)
  | .r0 => true
  | .r1 => true
  | .zx _ => false

/-- `bop` of R73 at width `n`: as `aop`, and `zx(num)` with num < 2^64. -/
def AsmOperand.okB (n : Nat) : AsmOperand → Bool
  | .num v => decide (v < 2 ^ n)
  | .r0 => true
  | .r1 => true
  | .zx v => decide (v < 2 ^ 64)

/-- `sop` of R73: `#num` with num < 2^64. -/
def AsmOperand.okS : AsmOperand → Bool
  | .num v => decide (v < 2 ^ 64)
  | .r0 => false
  | .r1 => false
  | .zx _ => false

/-- The operand shapes of R73 and R74. -/
inductive AsmShape where
  | aopBop
  | aop
  | aopSop
deriving DecidableEq, Repr

/-- The shape each mnemonic takes (R73; for the pseudo-instructions R74). -/
def Mnemonic.shape : Mnemonic → AsmShape
  | .and | .or | .xor | .eq | .ne | .lt | .le | .gt | .ge => .aopBop
  | .add | .addc | .sub | .shlw | .lsrw | .mul | .mulf | .udivrem | .sdivrem => .aopBop
  | .not | .neg => .aop
  | .shl | .lsr => .aopSop
  | .mov | .inc | .dec | .tstz => .aop
  | .div | .mod | .sdiv | .smod | .mulh => .aopBop

/-- A well-formed line at width `n`: the mnemonic's shape, and every number fits its port ("A number too large for its
port is an assembly error", R73). -/
def AsmLine.wellFormed (n : Nat) (l : AsmLine) : Bool :=
  match l.mnemonic.shape, l.operands with
  | .aopBop, [a, b] => a.okA n && b.okB n
  | .aop, [a] => a.okA n
  | .aopSop, [a, s] => a.okA n && s.okS
  | .aopBop, _ => false
  | .aop, _ => false
  | .aopSop, _ => false

end Sys2Proof
end

