-- ==== Sys2Proof/Machine/Assembler.lean ====
section
/-! DEFINITION. Sys2Proof/Machine/Assembler.lean: the assembler of spec/30_encoding.md R73 and R74: from a line to exactly
one command with its port values, and from text to a line. Where spaces and tabs may stand, and the value on a port that the
command does not read, are the model's choice (assumption 10). -/

namespace Sys2Proof.Machine

/-! ## From a line to a command -/

/-- A pseudo-instruction's expansion into a core command (R74); a core line is its own. -/
def expand (l : AsmLine) : AsmLine :=
  match l.mnemonic with
  | .mov => ⟨.or, l.operands ++ [.zx 0]⟩
  | .inc => ⟨.add, l.operands ++ [.zx 1]⟩
  | .dec => ⟨.sub, l.operands ++ [.zx 1]⟩
  | .tstz => ⟨.eq, l.operands ++ [.zx 0]⟩
  | .div => ⟨.udivrem, l.operands⟩
  | .mod => ⟨.udivrem, l.operands⟩
  | .sdiv => ⟨.sdivrem, l.operands⟩
  | .smod => ⟨.sdivrem, l.operands⟩
  | .mulh => ⟨.mulf, l.operands⟩
  | _ => l

/-- ASEL and the A port of a first operand (R73). -/
def assembleA : AsmOperand → Option (ASel × Nat)
  | .num v => some (.port, v)
  | .r0 => some (.r0, 0)
  | .r1 => some (.r1, 0)
  | .zx _ => none

/-- BSEL, the B port and the S port of a second operand (R73). -/
def assembleB : AsmOperand → BSel × Nat × Nat
  | .num v => (.port, v, 0)
  | .r0 => (.r0, 0, 0)
  | .r1 => (.r1, 0, 0)
  | .zx v => (.zextS, 0, v)

/-- The S port of a shift amount (R73). -/
def assembleS : AsmOperand → Option Nat
  | .num v => some v
  | .r0 => none
  | .r1 => none
  | .zx _ => none

/-- The command a core mnemonic with two selectors stands for (R67); none for the other mnemonics. -/
def twoOperandInstr : Mnemonic → Option (ASel → BSel → Instr)
  | .and => some .and
  | .or => some .or
  | .xor => some .xor
  | .eq => some .eq
  | .ne => some .ne
  | .lt => some .lt
  | .le => some .le
  | .gt => some .gt
  | .ge => some .ge
  | .add => some .add
  | .addc => some .addc
  | .sub => some .sub
  | .shlw => some .shlw
  | .lsrw => some .lsrw
  | .mul => some .mul
  | .mulf => some .mulf
  | .udivrem => some .udivrem
  | .sdivrem => some .sdivrem
  | _ => none

/-- The command a core mnemonic with one selector stands for (R67); none for the other mnemonics. -/
def oneOperandInstr : Mnemonic → Option (ASel → Instr)
  | .not => some .not
  | .neg => some .neg
  | .shl => some .shl
  | .lsr => some .lsr
  | _ => none

/-- The port values of a command (R20). -/
def presentInstr (n : Nat) (i : Instr) (a b s : Nat) : Ports n :=
  ⟨encode i, BitVec.ofNat n a, BitVec.ofNat n b, BitVec.ofNat 64 s⟩

/-- A core line's command and ports. -/
def assembleCore (n : Nat) (l : AsmLine) : Option (Ports n) :=
  match l.operands with
  | [x] => do
    let mk ← oneOperandInstr l.mnemonic
    let a ← assembleA x
    some (presentInstr n (mk a.1) a.2 0 0)
  | [x, y] => do
    let a ← assembleA x
    match twoOperandInstr l.mnemonic with
    | some mk =>
      let b := assembleB y
      some (presentInstr n (mk a.1 b.1) a.2 b.2.1 b.2.2)
    | none =>
      let mk ← oneOperandInstr l.mnemonic
      let s ← assembleS y
      some (presentInstr n (mk a.1) a.2 0 s)
  | _ => none

/-- The assembler at width `n`: exactly one command for a well-formed line (R73, R74), an assembly error otherwise. -/
def assemble (n : Nat) (l : AsmLine) : Option (Ports n) :=
  if l.wellFormed n then assembleCore n (expand l) else none

/-! ## From text to a line (R73) -/

/-- The characters that may stand between operands: space and tab, the model's choice (DESIGN CHOICE, assumption 10). -/
def isBlank (c : Char) : Bool := c == ' ' || c == '\t'

/-- Drop the blanks in front. -/
def skipBlanks (cs : List Char) : List Char := cs.dropWhile isBlank

/-- The value of a digit in a base. -/
def digitValue (base : Nat) (c : Char) : Option Nat :=
  let n := c.toNat
  let v :=
    if 48 ≤ n ∧ n ≤ 57 then n - 48
    else if 97 ≤ n ∧ n ≤ 102 then n - 87
    else if 65 ≤ n ∧ n ≤ 70 then n - 55
    else base
  if v < base then some v else none

/-- The digits in front, folded onto `acc`, and the rest. -/
def foldDigits (base : Nat) : Nat → List Char → Nat × List Char
  | acc, [] => (acc, [])
  | acc, c :: cs =>
    match digitValue base c with
    | some v => foldDigits base (acc * base + v) cs
    | none => (acc, c :: cs)

/-- One digit or more, and the rest. -/
def parseDigits (base : Nat) : List Char → Option (Nat × List Char)
  | [] => none
  | c :: cs => (digitValue base c).map fun v => foldDigits base v cs

/-- `num` (R73): decimal, `0x` hexadecimal, or `2^k` with an optional `+d` or `-d`. That a negative value is no number, and
that no blank stands after `0x` or around `^`, `+` and `-`, is the model's choice (DESIGN CHOICE, assumption 10). -/
def parseNum : List Char → Option (Nat × List Char)
  | '0' :: 'x' :: cs => parseDigits 16 cs
  | '2' :: '^' :: cs => do
    let k ← parseDigits 10 cs
    match k.2 with
    | '+' :: rest =>
      let d ← parseDigits 10 rest
      some (2 ^ k.1 + d.1, d.2)
    | '-' :: rest =>
      let d ← parseDigits 10 rest
      if d.1 ≤ 2 ^ k.1 then some (2 ^ k.1 - d.1, d.2) else none
    | _ => some (2 ^ k.1, k.2)
  | cs => parseDigits 10 cs

/-- An operand as written (R73). R73 is silent on blanks inside one: that a blank after `#`, around the `(` of `zx(` or before
its `)` is rejected is the model's choice (DESIGN CHOICE, assumption 10). -/
def parseOperand : List Char → Option (AsmOperand × List Char)
  | '#' :: cs => (parseNum cs).map fun r => (.num r.1, r.2)
  | 'R' :: '0' :: cs => some (.r0, cs)
  | 'R' :: '1' :: cs => some (.r1, cs)
  | 'z' :: 'x' :: '(' :: cs => do
    let v ← parseNum cs
    match v.2 with
    | ')' :: rest => some (.zx v.1, rest)
    | _ => none
  | _ => none

/-- `operand { "," operand }` up to the comment or the end of the line, reading at most `fuel` operands (R73). The
blanks skipped around each operand are the model's choice (DESIGN CHOICE, assumption 10). -/
def parseOperands : Nat → List Char → Option (List AsmOperand)
  | 0, _ => none
  | fuel + 1, cs => do
    let x ← parseOperand (skipBlanks cs)
    match skipBlanks x.2 with
    | [] => some [x.1]
    | ';' :: _ => some [x.1]
    | ',' :: rest => (parseOperands fuel rest).map fun xs => x.1 :: xs
    | _ => none

/-- A mnemonic as written, in capitals (R67, R74). -/
def mnemonicName : Mnemonic → String
  | .and => "AND"
  | .or => "OR"
  | .xor => "XOR"
  | .not => "NOT"
  | .eq => "EQ"
  | .ne => "NE"
  | .lt => "LT"
  | .le => "LE"
  | .gt => "GT"
  | .ge => "GE"
  | .add => "ADD"
  | .addc => "ADDC"
  | .sub => "SUB"
  | .neg => "NEG"
  | .shl => "SHL"
  | .lsr => "LSR"
  | .shlw => "SHLW"
  | .lsrw => "LSRW"
  | .mul => "MUL"
  | .mulf => "MULF"
  | .udivrem => "UDIVREM"
  | .sdivrem => "SDIVREM"
  | .mov => "MOV"
  | .inc => "INC"
  | .dec => "DEC"
  | .tstz => "TSTZ"
  | .div => "DIV"
  | .mod => "MOD"
  | .sdiv => "SDIV"
  | .smod => "SMOD"
  | .mulh => "MULH"

/-- All mnemonics. -/
def allMnemonics : List Mnemonic :=
  [.and, .or, .xor, .not, .eq, .ne, .lt, .le, .gt, .ge,
   .add, .addc, .sub, .neg, .shl, .lsr, .shlw, .lsrw, .mul, .mulf,
   .udivrem, .sdivrem, .mov, .inc, .dec, .tstz, .div, .mod, .sdiv, .smod, .mulh]

/-- A small letter as its capital: mnemonics are case-insensitive (R73). -/
def toCapital (c : Char) : Char := if 'a' ≤ c ∧ c ≤ 'z' then Char.ofNat (c.toNat - 32) else c

/-- A letter of the alphabet. -/
def isLetter (c : Char) : Bool := ('a' ≤ c ∧ c ≤ 'z') || ('A' ≤ c ∧ c ≤ 'Z')

/-- `line := mnemonic [ operand { "," operand } ] [ ";" comment ]` (R73). The blanks allowed before the mnemonic and asked for
after it are the model's choice (DESIGN CHOICE, assumption 10). -/
def parseLine (text : List Char) : Option AsmLine := do
  let cs := skipBlanks text
  let name := (cs.takeWhile isLetter).map toCapital
  let m ← allMnemonics.find? fun m => (mnemonicName m).toList == name
  match cs.dropWhile isLetter with
  | [] => some ⟨m, []⟩
  | ';' :: _ => some ⟨m, []⟩
  | c :: rest =>
    if isBlank c then
      match skipBlanks rest with
      | [] => some ⟨m, []⟩
      | ';' :: _ => some ⟨m, []⟩
      | operands => (parseOperands (operands.length + 1) operands).map fun xs => ⟨m, xs⟩
    else none

/-- A line of text at width `n` to its command (R73, R74). -/
def assembleText (n : Nat) (text : String) : Option (Ports n) := do
  let l ← parseLine text.toList
  assemble n l

end Sys2Proof.Machine
end

