-- ==== Sys2Proof/Machine/HostImage.lean ====
section
/-! DEFINITION. Sys2Proof/Machine/HostImage.lean: the host's big-endian byte image of an N-bit value
(spec/20_memory.md R50). It is recorded for the host and is no operation of the block (spec/00_scope.md R5). -/

namespace Sys2Proof.Machine

/-- `store(buf, x)` (R50): byte j is bits N-1-8j down to N-8-8j, byte 0 the most significant. -/
def storeImage {n : Nat} (x : BitVec n) : List Byte :=
  (List.range (n / 8)).map fun j => x.extractLsb' (n - 8 - 8 * j) 8

/-- `load(buf)` (R50): the first byte is the most significant. -/
def loadImage (n : Nat) (buf : List Byte) : BitVec n :=
  BitVec.ofNat n (buf.foldl (fun acc byte => acc * 256 + byte.toNat) 0)

end Sys2Proof.Machine
end

