-- ==== Sys2Proof/Machine/LimbLogic.lean ====
section
/-! DEFINITION. Sys2Proof/Machine/LimbLogic.lean: the limb structure of the bitwise and comparison units
(spec/40_compare_bitwise.md R85, R86). The meanings use the values; these definitions are what the values are claimed
equal to. -/

namespace Sys2Proof.Machine

/-- `bitop_N` (R85): the operator on the high and on the low limb, the base primitive's operator at 128 bits. -/
def limbBitop (op : Nat → Nat → Nat) : Nat → Nat → Nat → Nat
  | 0, x, y => op x y
  | e + 1, x, y =>
    let h := Config.width e
    concat h (limbBitop op e (limbHi h x) (limbHi h y)) (limbBitop op e (limbLo h x) (limbLo h y))

/-- `not_N` (R85), with the base primitive's complement at 128 bits. -/
def limbNot : Nat → Nat → Nat
  | 0, x => 2 ^ 128 - 1 - x
  | e + 1, x =>
    let h := Config.width e
    concat h (limbNot e (limbHi h x)) (limbNot e (limbLo h x))

/-- `eq_N` (R86). -/
def limbEq : Nat → Nat → Nat → Bool
  | 0, a, b => a == b
  | e + 1, a, b =>
    let h := Config.width e
    limbEq e (limbLo h a) (limbLo h b) && limbEq e (limbHi h a) (limbHi h b)

/-- `lt_N` (R86): the high limb decides unless the high limbs are equal. -/
def limbLt : Nat → Nat → Nat → Bool
  | 0, a, b => decide (a < b)
  | e + 1, a, b =>
    let h := Config.width e
    limbLt e (limbHi h a) (limbHi h b)
      || (limbEq e (limbHi h a) (limbHi h b) && limbLt e (limbLo h a) (limbLo h b))

end Sys2Proof.Machine
end

