-- ==== Sys2Proof/Machine/LimbAdder.lean ====
section
/-! DEFINITION. Sys2Proof/Machine/LimbAdder.lean: the adder's recursive carry chain (spec/41_adder.md R100) and the
negation and subtraction built on it (R104, R105). -/

namespace Sys2Proof.Machine

/-- `addc_N` (R100): k1 from the low limbs, k2 from the high limbs, k3 from adding k1 into the high sum; the carry-out is
k2 OR k3. At 128 bits it is the base primitive's add-with-overflow (R7). -/
def carryChain : Nat → Nat → Nat → Nat × Nat
  | 0, a, b => (trunc 128 (a + b), b2i (decide (2 ^ 128 ≤ a + b)))
  | e + 1, a, b =>
    let h := Config.width e
    let low := carryChain e (limbLo h a) (limbLo h b)
    let high := carryChain e (limbHi h a) (limbHi h b)
    let high' := carryChain e high.1 low.2
    (concat h high'.1 low.1, high.2 ||| high'.2)

/-- `neg_N(x) = addc_N(~x, 1).sum` (R105). -/
def chainNeg (e x : Nat) : Nat := (carryChain e (limbNot e x) 1).1

/-- SUB's `addc_N(a, neg_N(b)).sum` (R104). -/
def chainSub (e a b : Nat) : Nat := (carryChain e a (chainNeg e b)).1

end Sys2Proof.Machine
end

