-- ==== Sys2Proof/Machine/LimbShifter.lean ====
section
/-! DEFINITION. Sys2Proof/Machine/LimbShifter.lean: the shifter's recursive form (spec/42_shifter.md R116, R117), its
word-array form (R119) and the wide amount's word form (R120). A native or limb shift by its full width or more is undefined in
the host arithmetic and must never be executed (R115, R118): here it answers none, so a claim that a form answers a value
says that it never executes one. -/

namespace Sys2Proof.Machine

inductive Direction where
  | left
  | right
deriving DecidableEq, Repr

/-- A shift of a w-bit value by an amount below w (R10, R115). -/
def shiftValue (d : Direction) (w x s : Nat) : Nat :=
  match d with
  | .left => trunc w (x * 2 ^ s)
  | .right => x / 2 ^ s

/-- The other direction, in which the bits that cross the limb boundary are moved out. -/
def Direction.opposite : Direction → Direction
  | .left => .right
  | .right => .left

/-- The limb that bits leave across the boundary: the high one on a right shift (R116), the low one on a left shift
(R117). -/
def giver (d : Direction) (h x : Nat) : Nat :=
  match d with
  | .left => limbLo h x
  | .right => limbHi h x

/-- The limb that receives those bits. -/
def taker (d : Direction) (h x : Nat) : Nat :=
  match d with
  | .left => limbHi h x
  | .right => limbLo h x

/-- The limbs put back together. -/
def joinLimbs (d : Direction) (h giverLimb takerLimb : Nat) : Nat :=
  match d with
  | .left => concat h takerLimb giverLimb
  | .right => concat h giverLimb takerLimb

/-- A shift of a value of exponent `e` by an amount that must be below its width, none where it is not (R116, R117; R118).
The bits that cross the boundary move in two steps, by H - s - 1 and then by 1, never by H. -/
def limbShiftBelow : Nat → Direction → Nat → Nat → Option Nat
  | 0, d, x, s => if s < 128 then some (shiftValue d 128 x s) else none
  | e + 1, d, x, s =>
    let h := Config.width e
    if s < h then do
      let kept ← limbShiftBelow e d (giver d h x) s
      let once ← limbShiftBelow e d.opposite (giver d h x) (h - s - 1)
      let crossing ← limbShiftBelow e d.opposite once 1
      let moved ← limbShiftBelow e d (taker d h x) s
      some (joinLimbs d h kept (moved ||| crossing))
    else if s < Config.width (e + 1) then do
      let moved ← limbShiftBelow e d (giver d h x) (s - h)
      some (joinLimbs d h 0 moved)
    else none

/-- `shl_N` and `lsr_N` in the limb form (R116, R117), with the explicit check of the amount (R115). -/
def limbShift (e : Nat) (d : Direction) (x s : Nat) : Option Nat :=
  if s < Config.width e then limbShiftBelow e d x s else some 0

/-! ## The word-array form (R119) -/

/-- Word `j` of the array, 0 outside 0 to k-1 (R119). -/
def arrayWord (k x j : Nat) : Nat := if j < k then word x j else 0

/-- A native 64-bit shift, none at an amount of 64 or more (R119's guard, R118). -/
def nativeShift64 (d : Direction) (x b : Nat) : Option Nat := if b < 64 then some (shiftValue d 64 x b) else none

/-- `shrd(lo, hi, b)` (R119), with its `b == 0` branch. -/
def shrd (lo hi b : Nat) : Option Nat :=
  if b = 0 then some lo else do
    let l ← nativeShift64 .right lo b
    let m ← nativeShift64 .left hi (64 - b)
    some (l ||| m)

/-- `shld(hi, lo, b)` (R119), with its `b == 0` branch. -/
def shld (hi lo b : Nat) : Option Nat :=
  if b = 0 then some hi else do
    let l ← nativeShift64 .left hi b
    let m ← nativeShift64 .right lo (64 - b)
    some (l ||| m)

/-- `w[j - q]`, 0 where the index is negative (R119). -/
def arrayWordBelow (k x j q : Nat) : Nat := if q ≤ j then arrayWord k x (j - q) else 0

/-- `lsr_words` (R119) on `k` words. -/
def lsrWords (k x s : Nat) : Option Nat :=
  if 64 * k ≤ s then some 0 else do
    let r ← (List.range k).mapM fun j =>
      shrd (arrayWord k x (j + s / 64)) (arrayWord k x (j + s / 64 + 1)) (s % 64)
    some (fromWords r)

/-- `shl_words` (R119) on `k` words. -/
def shlWords (k x s : Nat) : Option Nat :=
  if 64 * k ≤ s then some 0 else do
    let r ← (List.range k).mapM fun j =>
      shld (arrayWordBelow k x j (s / 64)) (arrayWordBelow k x j (s / 64 + 1)) (s % 64)
    some (fromWords r)

/-! ## The wide amount (R120) -/

/-- `wide_amount_ok(b)` (R120): every word but the lowest is 0. -/
def wideAmountOk (k b : Nat) : Bool := (List.range k).all fun j => j == 0 || word b j == 0

/-- `shlw_N` and `lsrw_N` (R120): the scalar shift by the lowest word, or 0. -/
def wideShiftByWord (d : Direction) (n k x b : Nat) : Nat :=
  if wideAmountOk k b && decide (word b 0 < n) then shiftValue d n x (word b 0) else 0

end Sys2Proof.Machine
end

