-- ==== Sys2Proof/Machine/Schoolbook.lean ====
section
/-! DEFINITION. Sys2Proof/Machine/Schoolbook.lean: the multiplier's internal forms: the closed two-limb full and truncated
multiply (spec/43_multiplier.md R131, R132, with the dataflow that spec/90_conflicts.md C1 settles) and the nested loops over
words (R135, R136). -/

namespace Sys2Proof.Machine

/-- `fmul_N` for N = 64 * 2^i (R131). It ends at the native 64 x 64 product; none where one of its three sums does not fit
its width, which R131 says never happens. -/
def limbFullMul : Nat → Nat → Nat → Option Nat
  | 0, x, y => fits 128 (x * y)
  | i + 1, x, y => do
    let h := 64 * 2 ^ i
    let n := 2 * h
    let t0 ← limbFullMul i (limbLo h x) (limbLo h y)
    let t1 ← limbFullMul i (limbHi h x) (limbLo h y)
    let t2 ← limbFullMul i (limbLo h x) (limbHi h y)
    let t3 ← limbFullMul i (limbHi h x) (limbHi h y)
    let u1 ← fits n (t1 + limbHi h t0)
    let u2 ← fits n (t2 + limbLo h u1)
    let hi ← fits n (t3 + limbHi h u2 + limbHi h u1)
    some (concat n hi (concat h (limbLo h u2) (limbLo h t0)))

/-- `tmul_N` for N = 2^(7 + e) (R132). It ends at the base primitive's multiply modulo 2^128. -/
def limbTruncMul : Nat → Nat → Nat → Option Nat
  | 0, x, y => some (trunc 128 (x * y))
  | e + 1, x, y => do
    let h := Config.width e
    let t0 ← limbFullMul (e + 1) (limbLo h x) (limbLo h y)
    let c1 ← limbTruncMul e (limbLo h x) (limbHi h y)
    let c2 ← limbTruncMul e (limbHi h x) (limbLo h y)
    some (concat h (trunc h (limbHi h t0 + trunc h (c1 + c2))) (limbLo h t0))

/-- A word array with its running carry. -/
structure Accumulator where
  r : List Nat
  carry : Nat
deriving DecidableEq, Repr

/-- One inner step of R135 and R136: `t = u[i] * v[j] + r[i+j] + c`, which must fit 128 bits; its low word into r[i+j], its
high word the new carry. -/
def mulStep (x y j : Nat) (acc : Accumulator) (i : Nat) : Option Accumulator := do
  let t ← fits 128 (word x i * word y j + entry acc.r (i + j) + acc.carry)
  some ⟨acc.r.set (i + j) (t % wordBase), t / wordBase⟩

/-- The row of word `j` of y in R135: inner loop, then `r[j+K] = c`. -/
def fullRow (k x y : Nat) (r : List Nat) (j : Nat) : Option (List Nat) := do
  let acc ← (List.range k).foldlM (mulStep x y j) ⟨r, 0⟩
  some (acc.r.set (j + k) acc.carry)

/-- The nested-loop full multiply over words (R135). -/
def schoolbookFull (k x y : Nat) : Option Nat := do
  let r ← (List.range k).foldlM (fullRow k x y) (List.replicate (2 * k) 0)
  some (fromWords r)

/-- The row of word `j` of y in R136: the pairs with i + j <= K-2, then the pair i + j = K-1 folded into the last word
without propagating its carry. -/
def truncRow (k x y : Nat) (r : List Nat) (j : Nat) : Option (List Nat) := do
  let acc ← (List.range (k - 1 - j)).foldlM (mulStep x y j) ⟨r, 0⟩
  some (acc.r.set (k - 1) (trunc 64 (entry acc.r (k - 1) + word x (k - 1 - j) * word y j + acc.carry)))

/-- The truncated nested-loop multiply over words (R136). -/
def schoolbookTrunc (k x y : Nat) : Option Nat := do
  let r ← (List.range k).foldlM (truncRow k x y) (List.replicate k 0)
  some (fromWords r)

end Sys2Proof.Machine
end

