-- ==== Sys2Proof/Safety.lean ====
section
/-! DEFINITION. Sys2Proof/Safety.lean: what counts as a faulted run and as a consistent status, in the terms claims use
(spec/60_exceptions.md R189, spec/10_state.md R30, spec/70_reset_and_hazards.md R199). -/

namespace Sys2Proof.Machine

/-- A run whose state has any sticky bit set has faulted (R189, R199). -/
def State.faulted (s : State) : Bool := s.dzs || s.ils || s.uos

/-- R30's derived fact: ST.CODE = c with c not 0 implies that the sticky bit of c is 1. -/
def State.codeSticky (s : State) : Bool :=
  match s.code with
  | .ok => true
  | .divz => s.dzs
  | .illegal => s.ils
  | .undefOperand => s.uos

/-- The commands that write R1 write R0 too, and only reset clears a valid bit (R24, R28), so R1V = 1 implies R0V = 1. -/
def State.validOrdered (s : State) : Bool := !s.r1v || s.r0v

/-- The invariant of the status register and the valid bits. -/
def State.consistent (s : State) : Bool := s.codeSticky && s.validOrdered

/-- The interaction is a command. -/
def HostAction.isCommand {n : Nat} : HostAction n → Bool
  | .command _ => true
  | .reset => false
  | .resetDuring _ => false
  | .read => false

/-- Only commands are pending: no reset, no read. -/
def State.onlyCommands (s : State) : Bool := s.pending.all HostAction.isCommand

end Sys2Proof.Machine
end

