-- ==== Sys2Proof/Certificates/Slice0/Obligations.lean ====
section
/-! DEFINITION. Sys2Proof/Certificates/Slice0/Obligations.lean: the statements for the provers. Operands, opcodes, results
and the table of written registers are written here from the rules' own tables and formulas on naturals and integers, not by
the meanings' functions. Every statement is for every width N (assumption 1). -/

namespace Sys2Proof.Claims

open Sys2Proof.Machine

/-! ## The spec's tables -/

/-- ASEL numbers (R63). -/
def aNumber : ASel → Nat
  | .port => 0
  | .r0 => 1
  | .r1 => 2

/-- BSEL numbers (R64). -/
def bNumber : BSel → Nat
  | .port => 0
  | .r0 => 1
  | .r1 => 2
  | .zextS => 3

/-- The command word with RSV = 0 and the given fields (R60). -/
def wordOf (opc asel bsel : Nat) : CommandWord := BitVec.ofNat 16 (opc + 64 * asel + 256 * bsel)

/-- opA (R63), none where the selected register's valid bit is 0. -/
def operandA (s : State) : ASel → Option (BitVec s.width)
  | .port => some s.ports.a
  | .r0 => s.r0
  | .r1 => s.r1

/-- opB (R64), none where the selected register's valid bit is 0. -/
def operandB (s : State) : BSel → Option (BitVec s.width)
  | .port => some s.ports.b
  | .r0 => s.r0
  | .r1 => s.r1
  | .zextS => some (BitVec.ofNat s.width s.ports.s.toNat)

/-- R171's condition: the command selects a result register whose valid bit is 0. -/
def selectsInvalid (i : Instr) (s : State) : Prop :=
  (i.asel = .r0 ∧ s.r0 = none) ∨ (i.asel = .r1 ∧ s.r1 = none)
    ∨ (i.bsel = some .r0 ∧ s.r0 = none) ∨ (i.bsel = some .r1 ∧ s.r1 = none)

/-- The state after UNDEF_OPERAND (R172). -/
def undefined (s : State) : State := { s with code := .undefOperand, uos := true }

/-- The state after ILLEGAL (R172). -/
def illegal (s : State) : State := { s with code := .illegal, ils := true }

/-- The state after DIVZ (R172). -/
def divByZero (s : State) : State := { s with code := .divz, dzs := true }

/-- The reserved opcodes, one by one (R69 item 2). -/
def reservedOpcodes : List Nat :=
  [0x00, 0x05, 0x06, 0x07, 0x0E, 0x0F, 0x14, 0x15, 0x16, 0x17, 0x1C, 0x1D, 0x1E, 0x1F] ++
  [0x22, 0x23, 0x24, 0x25, 0x26, 0x27, 0x2A, 0x2B, 0x2C, 0x2D, 0x2E, 0x2F] ++
  [0x30, 0x31, 0x32, 0x33, 0x34, 0x35, 0x36, 0x37, 0x38, 0x39, 0x3A, 0x3B, 0x3C, 0x3D, 0x3E, 0x3F]

/-- R69's four conditions. -/
def illegalWord (w : CommandWord) : Prop :=
  rsvNumber w ≠ 0 ∨ opcNumber w ∈ reservedOpcodes ∨ aselNumber w = 3
    ∨ (opcNumber w ∈ [0x04, 0x13, 0x18, 0x19] ∧ bselNumber w ≠ 0)

/-- The R0 column of the table of R24. -/
def writesR0 : Instr → Bool
  | .and _ _ | .or _ _ | .xor _ _ | .not _ => true
  | .eq _ _ | .ne _ _ | .lt _ _ | .le _ _ | .gt _ _ | .ge _ _ => false
  | .add _ _ | .addc _ _ | .sub _ _ | .neg _ => true
  | .shl _ | .lsr _ | .shlw _ _ | .lsrw _ _ => true
  | .mul _ _ | .mulf _ _ => true
  | .udivrem _ _ | .sdivrem _ _ => true

/-- The R1 column of the table of R24. -/
def writesR1 : Instr → Bool
  | .and _ _ | .or _ _ | .xor _ _ | .not _ => false
  | .eq _ _ | .ne _ _ | .lt _ _ | .le _ _ | .gt _ _ | .ge _ _ => false
  | .add _ _ | .addc _ _ | .sub _ _ | .neg _ => false
  | .shl _ | .lsr _ | .shlw _ _ | .lsrw _ _ => false
  | .mul _ _ => false
  | .mulf _ _ => true
  | .udivrem _ _ | .sdivrem _ _ => true

/-- The CF column of the table of R24. -/
def writesCf : Instr → Bool
  | .and _ _ | .or _ _ | .xor _ _ | .not _ => false
  | .eq _ _ | .ne _ _ | .lt _ _ | .le _ _ | .gt _ _ | .ge _ _ => true
  | .add _ _ | .sub _ _ | .neg _ => false
  | .addc _ _ => true
  | .shl _ | .lsr _ | .shlw _ _ | .lsrw _ _ => false
  | .mul _ _ | .mulf _ _ => false
  | .udivrem _ _ | .sdivrem _ _ => false

/-- The opcode a mnemonic assembles to: R67's for a command, that of R74's expansion for a pseudo-instruction. -/
def opcodeNumber : Mnemonic → Nat
  | .and => 0x01
  | .or | .mov => 0x02
  | .xor => 0x03
  | .not => 0x04
  | .eq | .tstz => 0x08
  | .ne => 0x09
  | .lt => 0x0A
  | .le => 0x0B
  | .gt => 0x0C
  | .ge => 0x0D
  | .add | .inc => 0x10
  | .addc => 0x11
  | .sub | .dec => 0x12
  | .neg => 0x13
  | .shl => 0x18
  | .lsr => 0x19
  | .shlw => 0x1A
  | .lsrw => 0x1B
  | .mul => 0x20
  | .mulf | .mulh => 0x21
  | .udivrem | .div | .mod => 0x28
  | .sdivrem | .sdiv | .smod => 0x29

/-- The first operand as written gives ASEL and the number on the A port (R73's `aop`). -/
def FirstAsWritten (x : AsmOperand) (asel a : Nat) : Prop :=
  match x with
  | .num v => asel = 0 ∧ a = v
  | .r0 => asel = 1 ∧ a = 0
  | .r1 => asel = 2 ∧ a = 0
  | .zx _ => False

/-- A second operand that is a `bop` of R73 gives BSEL and the numbers on the B and S ports. -/
def SecondAsWritten (y : AsmOperand) (bsel b s : Nat) : Prop :=
  match y with
  | .num v => bsel = 0 ∧ b = v ∧ s = 0
  | .r0 => bsel = 1 ∧ b = 0 ∧ s = 0
  | .r1 => bsel = 2 ∧ b = 0 ∧ s = 0
  | .zx v => bsel = 3 ∧ b = 0 ∧ s = v

/-- What the operands after the first give on BSEL, B and S: nothing for NOT and NEG, the amount on S for SHL and LSR (R73's
`sop`), the constant of R74's expansion for MOV, INC, DEC and TSTZ, a `bop` for every other mnemonic. -/
def RestAsWritten (m : Mnemonic) (rest : List AsmOperand) (bsel b s : Nat) : Prop :=
  match m with
  | .not | .neg => rest = [] ∧ bsel = 0 ∧ b = 0 ∧ s = 0
  | .shl | .lsr => rest = [.num s] ∧ bsel = 0 ∧ b = 0
  | .mov | .tstz => rest = [] ∧ SecondAsWritten (.zx 0) bsel b s
  | .inc | .dec => rest = [] ∧ SecondAsWritten (.zx 1) bsel b s
  | _ => ∃ y, rest = [y] ∧ SecondAsWritten y bsel b s

/-- The command reads the A port (R63). -/
def readsPortA (i : Instr) : Prop := i.asel = .port

/-- The command reads the B port (R64). -/
def readsPortB (i : Instr) : Prop := i.bsel = some .port

/-- The command reads the S port: as opB, or as the amount of SHL and LSR (R64, R67). -/
def readsPortS (i : Instr) : Prop := i.bsel = some .zextS ∨ (∃ a, i = .shl a) ∨ ∃ a, i = .lsr a

/-- The divisor of a division is 0 (R170). -/
def dividesByZero (i : Instr) (s : State) : Prop :=
  ∃ a b, (i = .udivrem a b ∨ i = .sdivrem a b) ∧ operandB s b = some 0

/-! ## The shape of a command rule (R12): encoding, illegal words, result with everything else unchanged, operand fault -/

/-- A word with this opcode that R69 makes illegal faults ILLEGAL when it is presented, and nothing but ST changes. -/
def FaultsIllegal (opc : Nat) (bad : CommandWord → Prop) : Prop :=
  ∀ (s : State) (p : Ports s.width) (rest : List (HostAction s.width)),
    s.pending = .command p :: rest → opcNumber p.cmd = opc → bad p.cmd →
      step s = .next (illegal { s with ports := p, pending := rest })

/-- A command that reads A and B. Third clause: with both operands valid it COMPLETES in exactly the state `effect` gives.
Fourth: with one of them not valid it faults UNDEF_OPERAND. -/
def TwoOperandRule (opc : Nat) (mk : ASel → BSel → Instr)
    (effect : (s : State) → BitVec s.width → BitVec s.width → State) : Prop :=
  (∀ a b, decode (wordOf opc (aNumber a) (bNumber b)) = .ok (mk a b))
    ∧ FaultsIllegal opc (fun w => rsvNumber w ≠ 0 ∨ aselNumber w = 3)
    ∧ (∀ a b s x y, operandA s a = some x → operandB s b = some y → exec (mk a b) s = .next (effect s x y))
    ∧ (∀ a b s, operandA s a = none ∨ operandB s b = none → exec (mk a b) s = .next (undefined s))

/-- A command that reads A alone (R68: BSEL must be 0). Third clause: with the operand valid it COMPLETES in exactly the
state `effect` gives. Fourth: with the operand not valid it faults UNDEF_OPERAND. -/
def OneOperandRule (opc : Nat) (mk : ASel → Instr) (effect : (s : State) → BitVec s.width → State) : Prop :=
  (∀ a, decode (wordOf opc (aNumber a) 0) = .ok (mk a))
    ∧ FaultsIllegal opc (fun w => rsvNumber w ≠ 0 ∨ aselNumber w = 3 ∨ bselNumber w ≠ 0)
    ∧ (∀ a s x, operandA s a = some x → exec (mk a) s = .next (effect s x))
    ∧ (∀ a s, operandA s a = none → exec (mk a) s = .next (undefined s))

/-- A division. Third clause: with both operands valid and the divisor not 0 it COMPLETES with the quotient in R0 and the
remainder in R1. Fourth: with a zero divisor it faults DIVZ. Fifth: with an operand not valid, UNDEF_OPERAND. -/
def DivisionRule (opc : Nat) (mk : ASel → BSel → Instr)
    (quot rem : (n : Nat) → BitVec n → BitVec n → BitVec n) : Prop :=
  (∀ a b, decode (wordOf opc (aNumber a) (bNumber b)) = .ok (mk a b))
    ∧ FaultsIllegal opc (fun w => rsvNumber w ≠ 0 ∨ aselNumber w = 3)
    ∧ (∀ a b s u v, operandA s a = some u → operandB s b = some v → v ≠ 0 →
        exec (mk a b) s = .next { s with r0 := some (quot s.width u v), r1 := some (rem s.width u v), code := .ok })
    ∧ (∀ a b s u, operandA s a = some u → operandB s b = some 0 → exec (mk a b) s = .next (divByZero s))
    ∧ (∀ a b s, operandA s a = none ∨ operandB s b = none → exec (mk a b) s = .next (undefined s))

/-- R0 gets a number modulo 2^N, the command completes, everything else is unchanged. -/
def toR0 (s : State) (v : Nat) : State := { s with r0 := some (BitVec.ofNat s.width v), code := .ok }

/-- CF gets a truth value, the command completes, everything else is unchanged. -/
def toCf (s : State) (c : Bool) : State := { s with cf := some c, code := .ok }

end Sys2Proof.Claims

open Sys2Proof Sys2Proof.Machine Sys2Proof.Claims

/-! ## Encoding -/

/-- Decoding the word of a command gives the command back, every selector at every value. Every term of Instr is well
formed. -/
def Obligations.DecodeOfEncode : Prop := ∀ i : Instr, decode (encode i) = .ok i

/-- A word that decodes is the word of the command it decodes to: no bit of a command word is dropped. -/
def Obligations.EncodeOfDecode : Prop := ∀ (w : CommandWord) (i : Instr), decode w = .ok i → encode i = w

/-- R72: every word has exactly one outcome. It is illegal, or it decodes, is legal, and exactly one row of the table covers
it, which is its command's row. -/
def Obligations.DecoderIsTotalAndFollowsTheTable : Prop :=
  ∀ w : CommandWord,
    (∃ why, decode w = .error why ∧ legalWord w = false ∧ illegalWord w)
      ∨ ∃ i r, decode w = .ok i ∧ legalWord w = true ∧ ¬ illegalWord w
          ∧ opcodeTable.filter (fun row => row.covers w) = [r] ∧ r.mnemonic = i.mnemonic

/-- R68: each of NOT, NEG, SHL and LSR has 3 legal words and faults on a BSEL that is not 0, each of the other 18 opcodes
has 12, and 228 words are legal in all. -/
def Obligations.LegalWordCounts : Prop :=
  (∀ w : CommandWord, opcNumber w ∈ [0x04, 0x13, 0x18, 0x19] → bselNumber w ≠ 0 → ∃ why, decode w = .error why)
    ∧ (∀ r ∈ opcodeTable, ∃ l : List CommandWord, l.Nodup
        ∧ l.length = (if r.mnemonic ∈ ["NOT", "NEG", "SHL", "LSR"] then 3 else 12)
        ∧ ∀ w, w ∈ l ↔ ((∃ i, decode w = .ok i) ∧ opcNumber w = opcNumber r.pattern))
    ∧ ∃ l : List CommandWord, l.Nodup ∧ l.length = 228 ∧ ∀ w, w ∈ l ↔ ∃ i, decode w = .ok i

/-- Eight texts of R75 and GE's of V11, nine in all: each text, its command word with its ports, and what the word decodes to.
R75's word for SDIVREM decodes to it, and the zero word is rejected for its reserved opcode (R69, R173). A port that the command
does not read is 0 here by assumption 10. -/
def Obligations.EncodingExamples : Prop :=
  (assembleText 256 "ADD #5, #7" = some ⟨0x0010, 5, 7, 0⟩ ∧ decode 0x0010 = .ok (.add .port .port))
    ∧ (assembleText 256 "ADD R0, zx(1)" = some ⟨0x0350, 0, 0, 1⟩ ∧ decode 0x0350 = .ok (.add .r0 .zextS))
    ∧ (assembleText 256 "ADDC R1, R0" = some ⟨0x0191, 0, 0, 0⟩ ∧ decode 0x0191 = .ok (.addc .r1 .r0))
    ∧ (assembleText 256 "NOT R0" = some ⟨0x0044, 0, 0, 0⟩ ∧ decode 0x0044 = .ok (.not .r0))
    ∧ (assembleText 256 "SHL #1, #256" = some ⟨0x0018, 1, 0, 256⟩ ∧ decode 0x0018 = .ok (.shl .port))
    ∧ (assembleText 256 "LSRW R0, R1" = some ⟨0x025B, 0, 0, 0⟩ ∧ decode 0x025B = .ok (.lsrw .r0 .r1))
    ∧ (assembleText 256 "MULF #3, #5" = some ⟨0x0021, 3, 5, 0⟩ ∧ decode 0x0021 = .ok (.mulf .port .port))
    ∧ (assembleText 256 "UDIVREM R0, zx(10)" = some ⟨0x0368, 0, 0, 10⟩ ∧ decode 0x0368 = .ok (.udivrem .r0 .zextS))
    ∧ (assembleText 256 "GE R0, R1" = some ⟨0x024D, 0, 0, 0⟩ ∧ decode 0x024D = .ok (.ge .r0 .r1))
    ∧ decode 0x0029 = .ok (.sdivrem .port .port)
    ∧ decode 0x0000 = .error .opc

/-- R73: the assembler gives an error exactly for the lines that are not well formed. For a well-formed line it gives the
command word with the mnemonic's opcode and the ASEL and BSEL of the operands as written, the word decodes to the command with
those selectors, and the A, B and S ports hold the numbers as written. That a port which is not written holds 0 is
assumption 10. -/
def Obligations.AssemblerAcceptsExactlyTheWellFormedLines : Prop :=
  ∀ (n : Nat) (l : AsmLine),
    (assemble n l).isSome = l.wellFormed n
      ∧ ∀ p, assemble n l = some p →
          ∃ (i : Instr) (x : AsmOperand) (rest : List AsmOperand) (asel bsel : Nat),
            p.cmd = wordOf (opcodeNumber l.mnemonic) asel bsel
              ∧ decode p.cmd = .ok i ∧ aNumber i.asel = asel ∧ (i.bsel.map bNumber).getD 0 = bsel
              ∧ l.operands = x :: rest ∧ FirstAsWritten x asel p.a.toNat
              ∧ RestAsWritten l.mnemonic rest bsel p.b.toNat p.s.toNat

/-- The expansions of the nine pseudo-instructions, and what MOV, INC, DEC and TSTZ do. -/
def Obligations.PseudoInstructionsExpandAndAct : Prop :=
  (∀ n a, assemble n ⟨.mov, [a]⟩ = assemble n ⟨.or, [a, .zx 0]⟩
      ∧ assemble n ⟨.inc, [a]⟩ = assemble n ⟨.add, [a, .zx 1]⟩
      ∧ assemble n ⟨.dec, [a]⟩ = assemble n ⟨.sub, [a, .zx 1]⟩
      ∧ assemble n ⟨.tstz, [a]⟩ = assemble n ⟨.eq, [a, .zx 0]⟩)
    ∧ (∀ n a b, assemble n ⟨.div, [a, b]⟩ = assemble n ⟨.udivrem, [a, b]⟩
      ∧ assemble n ⟨.mod, [a, b]⟩ = assemble n ⟨.udivrem, [a, b]⟩
      ∧ assemble n ⟨.sdiv, [a, b]⟩ = assemble n ⟨.sdivrem, [a, b]⟩
      ∧ assemble n ⟨.smod, [a, b]⟩ = assemble n ⟨.sdivrem, [a, b]⟩
      ∧ assemble n ⟨.mulh, [a, b]⟩ = assemble n ⟨.mulf, [a, b]⟩)
    ∧ (∀ a s x, operandA s a = some x → s.ports.s = 0 →
        exec (.or a .zextS) s = .next { s with r0 := some x, code := .ok }
        ∧ exec (.eq a .zextS) s = .next (toCf s (decide (x.toNat = 0))))
    ∧ ∀ a s x, operandA s a = some x → s.ports.s = 1 →
        exec (.add a .zextS) s = .next (toR0 s (x.toNat + 1))
        ∧ exec (.sub a .zextS) s = .next (toR0 s (x.toNat + (2 ^ s.width - 1)))

/-! ## The step, faults and the status register -/

/-- A presented word that decodes is run on the sampled ports, with the interaction taken from the list. With nothing
presented the block holds its state. -/
def Obligations.StepRunsTheDecodedCommand : Prop :=
  (∀ (s : State) (p : Ports s.width) (rest : List (HostAction s.width)) (i : Instr),
      s.pending = .command p :: rest → decode p.cmd = .ok i → step s = exec i { s with ports := p, pending := rest })
    ∧ ∀ s : State, s.pending = [] → step s = .next s

/-- R69: a word with any of the four conditions faults ILLEGAL, with no operand read and no result written. -/
def Obligations.IllegalWordFaults : Prop :=
  ∀ (s : State) (p : Ports s.width) (rest : List (HostAction s.width)),
    s.pending = .command p :: rest → illegalWord p.cmd → step s = .next (illegal { s with ports := p, pending := rest })

/-- R171: every command faults UNDEF_OPERAND exactly when it selects a result register whose valid bit is 0, before the
command. -/
def Obligations.UndefOperandExactlyOnInvalidSelection : Prop :=
  ∀ (i : Instr) (s : State),
    (selectsInvalid i s → exec i s = .next (undefined s))
      ∧ (¬ selectsInvalid i s → ∃ t, exec i s = .next t ∧ t.code ≠ .undefOperand)

/-- R172: a command that faults with code c changes ST.CODE and the sticky bit of c, and nothing else of the block. -/
def Obligations.FaultWritesOnlyTheStatus : Prop :=
  ∀ (s t : State) (p : Ports s.width) (rest : List (HostAction s.width)),
    s.pending = .command p :: rest → step s = .next t → t.code ≠ .ok →
      t = { s with
            ports := p
            pending := rest
            code := t.code
            dzs := s.dzs || t.code == .divz
            ils := s.ils || t.code == .illegal
            uos := s.uos || t.code == .undefOperand }

/-- R175: the one fault a command reports is the first of ILLEGAL, UNDEF_OPERAND and DIVZ, only the sticky bit of the code it
reports is set (R30's update), and without any of their conditions the command completes. -/
def Obligations.FaultPriority : Prop :=
  ∀ (s : State) (p : Ports s.width) (rest : List (HostAction s.width)), s.pending = .command p :: rest →
    ∃ t, step s = .next t
      ∧ t.dzs = (s.dzs || t.code == .divz) ∧ t.ils = (s.ils || t.code == .illegal)
      ∧ t.uos = (s.uos || t.code == .undefOperand)
      ∧ (illegalWord p.cmd → t.code = .illegal)
      ∧ ∀ i, decode p.cmd = .ok i →
          (selectsInvalid i { s with ports := p, pending := rest } → t.code = .undefOperand)
          ∧ (¬ selectsInvalid i { s with ports := p, pending := rest } →
              dividesByZero i { s with ports := p, pending := rest } → t.code = .divz)
          ∧ (¬ selectsInvalid i { s with ports := p, pending := rest } →
              ¬ dividesByZero i { s with ports := p, pending := rest } → t.code = .ok)

/-- R24 and R27: a command that completes writes exactly the registers of its row and ST.CODE, and a command that faults
writes none. Width, ports, pending interactions and, when it completes, the sticky bits are unchanged. -/
def Obligations.CommandWritesExactlyItsRow : Prop :=
  ∀ (i : Instr) (s : State), ∃ (r0 r1 : Option (BitVec s.width)) (cf : Option Bool) (code : Code) (dzs ils uos : Bool),
    exec i s = .next { s with r0 := r0, r1 := r1, cf := cf, code := code, dzs := dzs, ils := ils, uos := uos }
      ∧ (code = .ok → dzs = s.dzs ∧ ils = s.ils ∧ uos = s.uos
          ∧ (if writesR0 i then r0.isSome = true else r0 = s.r0)
          ∧ (if writesR1 i then r1.isSome = true else r1 = s.r1)
          ∧ (if writesCf i then cf.isSome = true else cf = s.cf))
      ∧ (code ≠ .ok → r0 = s.r0 ∧ r1 = s.r1 ∧ cf = s.cf)

/-- ST's fields at their bits, the mirrors from the valid bits. -/
def Obligations.StatusByteLayout : Prop :=
  ∀ s : State,
    s.st.toNat = (match s.code with | .ok => 0 | .divz => 1 | .illegal => 2 | .undefOperand => 3)
      + 4 * s.dzs.toNat + 8 * s.ils.toNat + 16 * s.uos.toNat
      + 32 * s.r0.isSome.toNat + 64 * s.r1.isSome.toNat + 128 * s.cf.isSome.toNat

/-- Over any list of commands from any state, each sticky bit is set at the end exactly when it was set at the start or some
command on the way reported its code. So from reset no sticky bit is set exactly when no command faulted (R189). -/
def Obligations.StickyBitsRecordEveryFault : Prop :=
  ∀ (k : Nat) (s t : State), s.onlyCommands = true → k ≤ s.pending.length → Host.Core.run core k s = .next t →
    (t.dzs = true ↔ s.dzs = true ∨ ∃ j u, 1 ≤ j ∧ j ≤ k ∧ Host.Core.run core j s = .next u ∧ u.code = .divz)
      ∧ (t.ils = true ↔ s.ils = true ∨ ∃ j u, 1 ≤ j ∧ j ≤ k ∧ Host.Core.run core j s = .next u ∧ u.code = .illegal)
      ∧ (t.uos = true ↔ s.uos = true ∨ ∃ j u, 1 ≤ j ∧ j ≤ k ∧ Host.Core.run core j s = .next u ∧ u.code = .undefOperand)

/-- Every step of every kind keeps: ST.CODE = c with c not 0 implies the sticky bit of c, and R1V = 1 implies R0V = 1. -/
def Obligations.StepKeepsTheStatusConsistent : Prop :=
  ∀ s t : State, s.consistent = true → step s = .next t → t.consistent = true

/-- The reset state of every width meets that invariant. -/
def Obligations.ResetIsConsistent : Prop := State.reset.consistent = true ∧ ∀ e, (State.resetAt e).consistent = true

/-- R0V, R1V and CFV are never cleared but by reset. -/
def Obligations.ValidBitsAreClearedOnlyByReset : Prop :=
  ∀ (s t : State) (act : HostAction s.width) (rest : List (HostAction s.width)), s.pending = act :: rest →
    act ≠ .reset → (∀ p, act ≠ .resetDuring p) → step s = .next t →
      (s.r0.isSome = true → t.r0.isSome = true) ∧ (s.r1.isSome = true → t.r1.isSome = true)
        ∧ (s.cf.isSome = true → t.cf.isSome = true)

/-! ## Reset, the host and runs -/

/-- R190: reset clears the valid bits and ST; the block then waits. The clause on State.resetAt is for every width. -/
def Obligations.ResetClearsValidBitsAndStatus : Prop :=
  (∀ (s : State) (rest : List (HostAction s.width)), s.pending = .reset :: rest →
      step s = .next { s with r0 := none, r1 := none, cf := none, code := .ok, dzs := false, ils := false, uos := false,
                              pending := rest })
    ∧ ∀ e, (State.resetAt e).view = ⟨none, none, none, 0⟩ ∧ step (State.resetAt e) = .next (State.resetAt e)

/-- R191: a command in whose course reset is asserted writes nothing; what the host reads afterwards is the reset state, and
it is what a reset between commands leaves. -/
def Obligations.ResetDuringACommandAbandonsIt : Prop :=
  ∀ (s : State) (p : Ports s.width) (rest : List (HostAction s.width)), s.pending = .resetDuring p :: rest →
    step s = .next { s with r0 := none, r1 := none, cf := none, code := .ok, dzs := false, ils := false, uos := false,
                            ports := p, pending := rest }

/-- A host read has no effect. It gives no value for a register whose valid bit is 0, else the register's value, and ST. -/
def Obligations.HostReadHasNoEffect : Prop :=
  (∀ (s : State) (rest : List (HostAction s.width)), s.pending = .read :: rest → step s = .next { s with pending := rest })
    ∧ ∀ s : State,
        (s.view.r0 = none ↔ s.st.getLsbD 5 = false) ∧ (s.view.r1 = none ↔ s.st.getLsbD 6 = false)
          ∧ (s.view.cf = none ↔ s.st.getLsbD 7 = false)
          ∧ (∀ x, s.r0 = some x → s.view.r0 = some x.toNat) ∧ (∀ x, s.r1 = some x → s.view.r1 = some x.toNat)
          ∧ s.view.cf = s.cf ∧ s.view.st = s.st

/-- Every step answers a next state, takes exactly the first pending interaction and keeps the width. -/
def Obligations.EveryStepCompletesAndTakesOneInteraction : Prop :=
  ∀ s : State, ∃ (r0 r1 : Option (BitVec s.width)) (cf : Option Bool) (code : Code) (dzs ils uos : Bool)
      (ports : Ports s.width),
    step s = .next { s with r0 := r0, r1 := r1, cf := cf, code := code, dzs := dzs, ils := ils, uos := uos,
                            ports := ports, pending := s.pending.tail }

/-- A run of k interactions ends after exactly k steps, in a state of the same width with nothing pending, and after j of its
steps exactly the interactions but the first j are pending, with the width unchanged. -/
def Obligations.RunEndsAfterAsManyStepsAsInteractions : Prop :=
  (∀ s : State, ∃ t, Host.Core.run core s.pending.length s = .next t ∧ t.pending = [] ∧ t.wexp = s.wexp)
    ∧ ∀ (s : State) (j : Nat), j ≤ s.pending.length →
        ∃ (r0 r1 : Option (BitVec s.width)) (cf : Option Bool) (code : Code) (dzs ils uos : Bool) (ports : Ports s.width),
          Host.Core.run core j s = .next { s with r0 := r0, r1 := r1, cf := cf, code := code, dzs := dzs, ils := ils,
                                                  uos := uos, ports := ports, pending := s.pending.drop j }

/-- A port that a command does not read has no effect on it, whatever value it carries. -/
def Obligations.UnreadPortsHaveNoEffect : Prop :=
  ∀ (i : Instr) (s : State) (p : Ports s.width),
    (readsPortA i → p.a = s.ports.a) → (readsPortB i → p.b = s.ports.b) → (readsPortS i → p.s = s.ports.s) →
      ∃ (r0 r1 : Option (BitVec s.width)) (cf : Option Bool) (code : Code) (dzs ils uos : Bool),
        exec i s = .next { s with r0 := r0, r1 := r1, cf := cf, code := code, dzs := dzs, ils := ils, uos := uos }
          ∧ exec i { s with ports := p }
            = .next { s with ports := p, r0 := r0, r1 := r1, cf := cf, code := code, dzs := dzs, ils := ils, uos := uos }

/-- No command reads CF or ST: with another flag and another status the results and the code reported are the same. -/
def Obligations.NoCommandReadsFlagOrStatus : Prop :=
  ∀ (i : Instr) (s : State) (cf : Option Bool) (code : Code) (dzs ils uos : Bool),
    ∃ t u, exec i s = .next t
      ∧ exec i { s with cf := cf, code := code, dzs := dzs, ils := ils, uos := uos } = .next u
      ∧ t.view.r0 = u.view.r0 ∧ t.view.r1 = u.view.r1 ∧ t.code = u.code
      ∧ (writesCf i = true → t.code = .ok → t.cf = u.cf)

/-! ## The commands, one rule each -/

/-- R87, R88, R89. -/
def Obligations.BitwiseCommands : Prop :=
  TwoOperandRule 0x01 .and (fun s x y => toR0 s (x.toNat &&& y.toNat))
    ∧ TwoOperandRule 0x02 .or (fun s x y => toR0 s (x.toNat ||| y.toNat))
    ∧ TwoOperandRule 0x03 .xor (fun s x y => toR0 s (x.toNat ^^^ y.toNat))

/-- R90. -/
def Obligations.NotCommand : Prop := OneOperandRule 0x04 .not (fun s x => toR0 s (2 ^ s.width - 1 - x.toNat))

/-- R91 to R96, unsigned. -/
def Obligations.ComparisonCommands : Prop :=
  TwoOperandRule 0x08 .eq (fun s x y => toCf s (decide (x.toNat = y.toNat)))
    ∧ TwoOperandRule 0x09 .ne (fun s x y => toCf s (decide (x.toNat ≠ y.toNat)))
    ∧ TwoOperandRule 0x0A .lt (fun s x y => toCf s (decide (x.toNat < y.toNat)))
    ∧ TwoOperandRule 0x0B .le (fun s x y => toCf s (decide (x.toNat ≤ y.toNat)))
    ∧ TwoOperandRule 0x0C .gt (fun s x y => toCf s (decide (x.toNat > y.toNat)))
    ∧ TwoOperandRule 0x0D .ge (fun s x y => toCf s (decide (x.toNat ≥ y.toNat)))

/-- R102: the carry is discarded and CF unchanged. -/
def Obligations.AddCommand : Prop := TwoOperandRule 0x10 .add (fun s x y => toR0 s (x.toNat + y.toNat))

/-- R103: CF is the carry-out. The last clause is R103's carry through k3 alone: a high limb of ones, with 0 added, carries
only when the low limbs' carry is added. -/
def Obligations.AddcCommand : Prop :=
  TwoOperandRule 0x11 .addc (fun s x y =>
    { s with
      r0 := some (BitVec.ofNat s.width (x.toNat + y.toNat))
      cf := some (decide (x.toNat + y.toNat ≥ 2 ^ s.width))
      code := .ok })
    ∧ ∀ e, carryChain e (2 ^ Config.width e - 1) 0 = (2 ^ Config.width e - 1, 0)
        ∧ carryChain e (2 ^ Config.width e - 1) 1 = (0, 1)

/-- R104: no borrow output. -/
def Obligations.SubCommand : Prop :=
  TwoOperandRule 0x12 .sub (fun s x y =>
    toR0 s (if y.toNat ≤ x.toNat then x.toNat - y.toNat else x.toNat + 2 ^ s.width - y.toNat))

/-- R105. The last clause: the discarded carry of the inner addition is 1 exactly when the operand is 0. -/
def Obligations.NegCommand : Prop :=
  OneOperandRule 0x13 .neg (fun s x => toR0 s (if x.toNat = 0 then 0 else 2 ^ s.width - x.toNat))
    ∧ ∀ e x, x < 2 ^ Config.width e →
        (carryChain e (2 ^ Config.width e - 1 - x) 1).2 = if x = 0 then 1 else 0

/-- R121, R122: the amount is all 64 bits of S. -/
def Obligations.ScalarShiftCommands : Prop :=
  OneOperandRule 0x18 .shl (fun s x =>
      toR0 s (if s.ports.s.toNat < s.width then x.toNat * 2 ^ s.ports.s.toNat else 0))
    ∧ OneOperandRule 0x19 .lsr (fun s x =>
      toR0 s (if s.ports.s.toNat < s.width then x.toNat / 2 ^ s.ports.s.toNat else 0))

/-- R123, R124: the amount is all N bits of opB, in the value form R120 calls normative. -/
def Obligations.WideShiftCommands : Prop :=
  TwoOperandRule 0x1A .shlw (fun s x y => toR0 s (if y.toNat < s.width then x.toNat * 2 ^ y.toNat else 0))
    ∧ TwoOperandRule 0x1B .lsrw (fun s x y => toR0 s (if y.toNat < s.width then x.toNat / 2 ^ y.toNat else 0))

/-- R134: R1 and CF unchanged. -/
def Obligations.MulCommand : Prop := TwoOperandRule 0x20 .mul (fun s x y => toR0 s (x.toNat * y.toNat))

/-- R133: the low half to R0, the high half to R1. -/
def Obligations.MulfCommand : Prop :=
  TwoOperandRule 0x21 .mulf (fun s x y =>
    { s with
      r0 := some (BitVec.ofNat s.width (x.toNat * y.toNat))
      r1 := some (BitVec.ofNat s.width (x.toNat * y.toNat / 2 ^ s.width))
      code := .ok })

/-- R156, with R158's DIVZ. -/
def Obligations.UdivremCommand : Prop :=
  DivisionRule 0x28 .udivrem (fun n u v => BitVec.ofNat n (u.toNat / v.toNat)) (fun n u v => BitVec.ofNat n (u.toNat % v.toNat))

/-- R157, with R158's DIVZ: quotient and remainder truncate toward zero, modulo 2^N, so MIN / -1 wraps to MIN. -/
def Obligations.SdivremCommand : Prop :=
  DivisionRule 0x29 .sdivrem (fun n u v => BitVec.ofInt n (u.toInt.tdiv v.toInt))
    (fun n u v => BitVec.ofInt n (u.toInt.tmod v.toInt))

/-! ## Laws over the commands -/

/-- R106 in commands: ADD then SUB of the same operand gives the first operand back; swapping the ports does not change
ADD; adding B and then zx(S) is adding B + zx(S); ADDC's R0 is ADD's; SUB is NEG of the subtrahend, then ADD. -/
def Obligations.AdditiveLaws : Prop :=
  (∀ s : State, ∃ t u, exec (.add .port .port) s = .next t ∧ exec (.sub .r0 .port) t = .next u
      ∧ u.view.r0 = some s.ports.a.toNat)
    ∧ (∀ s : State, ∃ t u, exec (.add .port .port) s = .next t
      ∧ exec (.add .port .port) { s with ports := { s.ports with a := s.ports.b, b := s.ports.a } } = .next u
      ∧ t.view.r0 = u.view.r0)
    ∧ (∀ s : State, ∃ t u v w, exec (.add .port .port) s = .next t ∧ exec (.add .r0 .zextS) t = .next u
      ∧ exec (.add .port .zextS) { s with ports := { s.ports with a := s.ports.b, b := s.ports.a } } = .next v
      ∧ exec (.add .r0 .port) v = .next w ∧ u.view.r0 = w.view.r0)
    ∧ (∀ a b s, ∃ t u, exec (.add a b) s = .next t ∧ exec (.addc a b) s = .next u ∧ t.view.r0 = u.view.r0)
    ∧ ∀ s : State, ∃ t u v, exec (.neg .port) { s with ports := { s.ports with a := s.ports.b, b := s.ports.a } } = .next t
      ∧ exec (.add .r0 .port) t = .next v ∧ exec (.sub .port .port) s = .next u ∧ v.view.r0 = u.view.r0

/-- R125 in commands: SHL by S then LSR by S clears the top S bits, for S < N; each gives 0 at S of N or more and its operand
at 0. -/
def Obligations.ShiftLaws : Prop :=
  ∀ a s x, operandA s a = some x →
    (s.ports.s.toNat < s.width → ∃ t u, exec (.shl a) s = .next t ∧ exec (.lsr .r0) t = .next u
        ∧ u.view.r0 = some (x.toNat % 2 ^ (s.width - s.ports.s.toNat)))
      ∧ (s.width ≤ s.ports.s.toNat → exec (.shl a) s = .next (toR0 s 0) ∧ exec (.lsr a) s = .next (toR0 s 0))
      ∧ (s.ports.s = 0 → exec (.shl a) s = .next { s with r0 := some x, code := .ok }
        ∧ exec (.lsr a) s = .next { s with r0 := some x, code := .ok })

/-- R138 in commands: MUL's R0 is MULF's, the product does not depend on the order of the ports, and MULF's R1 is 0 exactly
when the product fits N bits. -/
def Obligations.MultiplicationLaws : Prop :=
  ∀ a b s x y, operandA s a = some x → operandB s b = some y →
    ∃ t u, exec (.mul a b) s = .next t ∧ exec (.mulf a b) s = .next u ∧ t.view.r0 = u.view.r0
      ∧ (u.view.r1 = some 0 ↔ x.toNat * y.toNat < 2 ^ s.width)
      ∧ ∃ v, exec (.mulf .port .port) { s with ports := { s.ports with a := y, b := x } } = .next v
        ∧ v.view.r0 = u.view.r0 ∧ v.view.r1 = u.view.r1

/-- R159 in commands: after UDIVREM by the B port, MUL R0, #v and ADD R0, R1 rebuild the dividend, with no wrap, and the
remainder is below the divisor. -/
def Obligations.DivisionLaw : Prop :=
  ∀ (s : State) (a : ASel) (u : BitVec s.width), operandA s a = some u → s.ports.b ≠ 0 →
    ∃ t1 t2 t3 q r, exec (.udivrem a .port) s = .next t1 ∧ t1.view.r0 = some q ∧ t1.view.r1 = some r
      ∧ q * s.ports.b.toNat + r = u.toNat ∧ r < s.ports.b.toNat
      ∧ exec (.mul .r0 .port) t1 = .next t2 ∧ exec (.add .r0 .r1) t2 = .next t3 ∧ t3.view.r0 = some u.toNat

/-- R155's signed facts about the sign-and-magnitude procedure: it truncates toward zero; the remainder is 0 or has the
dividend's sign and is smaller than the divisor in magnitude; only MIN / -1 wraps, to MIN with remainder 0. -/
def Obligations.SignedDivisionProcedure : Prop :=
  ∀ (e : Nat) (u v : BitVec (Config.width e)), v ≠ 0 →
    ((u = BitVec.intMin _ ∧ v = -1) → (sdivrem u v).quot = BitVec.intMin _ ∧ (sdivrem u v).rem = 0)
      ∧ (¬ (u = BitVec.intMin _ ∧ v = -1) → (sdivrem u v).quot.toInt = u.toInt.tdiv v.toInt
        ∧ u.toInt = (sdivrem u v).quot.toInt * v.toInt + (sdivrem u v).rem.toInt)
      ∧ ((sdivrem u v).rem = 0 ∨ (sdivrem u v).rem.msb = u.msb)
      ∧ (sdivrem u v).rem.toInt.natAbs < v.toInt.natAbs

/-! ## The units' internal algorithms give the value rules the meanings use -/

/-- R85: the limb recursion of the bitwise unit is the bit-by-bit operation. -/
def Obligations.LimbBitwiseIsBitwise : Prop :=
  ∀ e x y, x < 2 ^ Config.width e → y < 2 ^ Config.width e →
    limbBitop Nat.land e x y = x &&& y ∧ limbBitop Nat.lor e x y = x ||| y ∧ limbBitop Nat.xor e x y = x ^^^ y
      ∧ limbNot e x = 2 ^ Config.width e - 1 - x

/-- R86: the limb recursion of the comparison unit is the comparison of naturals, so exactly one of lt(x, y), eq(x, y) and
lt(y, x) holds. -/
def Obligations.LimbComparisonIsComparison : Prop :=
  ∀ e x y, x < 2 ^ Config.width e → y < 2 ^ Config.width e →
    limbEq e x y = decide (x = y) ∧ limbLt e x y = decide (x < y)
      ∧ (limbLt e x y).toNat + (limbEq e x y).toNat + (limbLt e y x).toNat = 1

/-- R100, R101: the carry chain is exact addition, and k2 and k3 are never both 1. With it R104's and R105's chains for
subtraction and negation. -/
def Obligations.CarryChainIsExactAddition : Prop :=
  ∀ e a b, a < 2 ^ Config.width e → b < 2 ^ Config.width e →
    carryChain e a b = ((a + b) % 2 ^ Config.width e, if a + b ≥ 2 ^ Config.width e then 1 else 0)
      ∧ ((carryChain e a b).2 = 1 → ∀ k, k ≤ 1 → (carryChain e (carryChain e a b).1 k).2 = 0)
      ∧ chainNeg e b = (2 ^ Config.width e - b) % 2 ^ Config.width e
      ∧ chainSub e a b = (a + (2 ^ Config.width e - b)) % 2 ^ Config.width e

/-- R116 to R118: the limb form gives R115's value at every amount and never executes a shift by its full width. That such a
shift answers none, so that a value says it was not executed, is the model's choice (assumption 12). -/
def Obligations.LimbShiftIsExactAndNeverFullWidth : Prop :=
  ∀ e x s, x < 2 ^ Config.width e →
    limbShift e .left x s = some (if s < Config.width e then x * 2 ^ s % 2 ^ Config.width e else 0)
      ∧ limbShift e .right x s = some (if s < Config.width e then x / 2 ^ s else 0)

/-- R119: the word-array form gives R115's value at every amount, for every number of words, and never executes a native
shift by 64. shrd, shld and the guard are general knowledge (assumption 16), and a native shift by 64 or more answers none by
the model's choice (assumption 12). -/
def Obligations.WordArrayShiftIsExact : Prop :=
  ∀ k x s, x < 2 ^ (64 * k) →
    shlWords k x s = some (if s < 64 * k then x * 2 ^ s % 2 ^ (64 * k) else 0)
      ∧ lsrWords k x s = some (if s < 64 * k then x / 2 ^ s else 0)

/-- R120: shifting by the lowest word, or giving 0 where a higher word is not 0, is shifting by the whole amount, for every
instance with N < 2^64. -/
def Obligations.WideShiftByLowestWordIsByValue : Prop :=
  ∀ e x b, Config.width e < 2 ^ 64 → x < 2 ^ Config.width e → b < 2 ^ Config.width e →
    wideShiftByWord .left (Config.width e) (Config.words e) x b
        = (if b < Config.width e then x * 2 ^ b % 2 ^ Config.width e else 0)
      ∧ wideShiftByWord .right (Config.width e) (Config.words e) x b = (if b < Config.width e then x / 2 ^ b else 0)

/-- R131: the closed two-limb full multiply is the exact product and none of its sums overflows. That a sum which overflows
answers none is the model's choice (assumption 12). -/
def Obligations.LimbFullMultiplyIsExact : Prop :=
  ∀ i x y, x < 2 ^ (64 * 2 ^ i) → y < 2 ^ (64 * 2 ^ i) → limbFullMul i x y = some (x * y)

/-- R132: the closed two-limb truncated multiply is the product modulo 2^N. It answers an option because the full multiply it
calls does (assumption 12). -/
def Obligations.LimbTruncatedMultiplyIsExact : Prop :=
  ∀ e x y, x < 2 ^ Config.width e → y < 2 ^ Config.width e →
    limbTruncMul e x y = some (x * y % 2 ^ Config.width e)

/-- R135: the nested-loop full multiply is the exact product, for every number of words, and its steps fit 128 bits. The loop
order and the bound are general knowledge (assumption 16), and a step beyond 128 bits answers none by the model's choice
(assumption 12). -/
def Obligations.SchoolbookFullMultiplyIsExact : Prop :=
  ∀ k x y, x < 2 ^ (64 * k) → y < 2 ^ (64 * k) → schoolbookFull k x y = some (x * y)

/-- R136: the truncated nested-loop multiply is the product modulo 2^(64 K), for every number of words. The loop bounds are
general knowledge (assumption 16), and a step beyond 128 bits answers none by the model's choice (assumption 12). -/
def Obligations.SchoolbookTruncatedMultiplyIsExact : Prop :=
  ∀ k x y, x < 2 ^ (64 * k) → y < 2 ^ (64 * k) → schoolbookTrunc k x y = some (x * y % 2 ^ (64 * k))

/-- R153: short division gives the quotient and the remainder, each quotient word below 2^64. The algorithm is general
knowledge (assumption 16), and a value beyond its width answers none by the model's choice (assumption 12). -/
def Obligations.ShortDivisionIsExact : Prop :=
  ∀ k u v, u < 2 ^ (64 * k) → 0 < v → v < 2 ^ 64 → shortDivision k u v = some (u / v, u % v)

/-- R149: on a normalized divisor and a window below b times it, the corrected trial quotient is the true word or one
more, after at most two corrections, with every product within 128 bits (R154). The correction test is general knowledge
(assumption 16), and a third correction or a product beyond 128 bits answers none by the model's choice (assumption 12). -/
def Obligations.TrialQuotientIsTrueOrOneMore : Prop :=
  ∀ (un vn : List Nat) (j n : Nat), 2 ≤ n → vn.length = n → j + n < un.length →
    (∀ d ∈ un, d < 2 ^ 64) → (∀ d ∈ vn, d < 2 ^ 64) → 2 ^ 63 ≤ entry vn (n - 1) →
    fromWords ((un.drop j).take (n + 1)) < fromWords vn * 2 ^ 64 →
      ∃ qhat, trialQuotient un vn j n = some qhat
        ∧ fromWords ((un.drop j).take (n + 1)) / fromWords vn ≤ qhat
        ∧ qhat ≤ fromWords ((un.drop j).take (n + 1)) / fromWords vn + 1

/-- R147 to R152, R154: under its preconditions Algorithm D gives the quotient and the remainder, with at most two trial
corrections, at most one add-back a word, and every intermediate within 128 bits. Its word-level steps are general knowledge
(assumption 16), and what exceeds those bounds answers none by the model's choice (assumption 12). -/
def Obligations.AlgorithmDDivides : Prop :=
  ∀ k u v, u < 2 ^ (64 * k) → v ≤ u → 2 ≤ nzWords k v → algorithmD k u v = some (u / v, u % v)

/-- R146, R160: every path that applies gives the same quotient and remainder, those of R145; and some path always applies. The
steps of the short and the general path are general knowledge (assumption 16), and they answer none beyond their widths by the
model's choice (assumption 12). -/
def Obligations.DivisionPathsAgree : Prop :=
  ∀ k u v, u < 2 ^ (64 * k) → v < 2 ^ (64 * k) → v ≠ 0 →
    (∀ path : DivPath, path.applies k u v = true → path.divide k u v = some (u / v, u % v))
      ∧ ∃ path : DivPath, path.applies k u v = true

/-- R50: loading the host's byte image of a value gives the value back; the image has N/8 bytes, and byte j is bits N-1-8j
down to N-8-8j, so byte 0 is the most significant. -/
def Obligations.HostImageRoundTrips : Prop :=
  ∀ (e : Nat) (x : BitVec (Config.width e)),
    loadImage (Config.width e) (storeImage x) = x ∧ (storeImage x).length = Config.width e / 8
      ∧ ∀ j, j < Config.width e / 8 →
          ((storeImage x).getD j 0).toNat = x.toNat / 2 ^ (Config.width e - 8 - 8 * j) % 256
end

