-- ==== Sys2Proof/Laws/Decode.lean ====
section
/-! SUPPORT. Sys2Proof/Laws/Decode.lean: the fields of a packed word are the fields that were packed, and each selector's bits
decode to the selector. -/

namespace Sys2Proof

theorem packFields_toNat (r : BitVec 6) (b a : BitVec 2) (o : BitVec 6) :
    (packFields r b a o).toNat = r.toNat * 1024 + b.toNat * 256 + a.toNat * 64 + o.toNat := by
  have hb := b.isLt
  have ha := a.isLt
  have ho := o.isLt
  simp only [packFields, BitVec.toNat_append, Nat.shiftLeft_eq]
  rw [Nat.mul_comm _ (2 ^ 6), ← Nat.two_pow_add_eq_or_of_lt (by omega), Nat.mul_comm _ (2 ^ 2),
    ← Nat.two_pow_add_eq_or_of_lt (by omega), Nat.mul_comm _ (2 ^ 2), ← Nat.two_pow_add_eq_or_of_lt (by omega)]
  omega

theorem rsvField_packFields (r : BitVec 6) (b a : BitVec 2) (o : BitVec 6) : rsvField (packFields r b a o) = r := by
  have hr := r.isLt
  have hb := b.isLt
  have ha := a.isLt
  have ho := o.isLt
  apply BitVec.eq_of_toNat_eq
  simp only [rsvField, BitVec.extractLsb'_toNat, packFields_toNat, Nat.shiftRight_eq_div_pow]
  omega

theorem bselField_packFields (r : BitVec 6) (b a : BitVec 2) (o : BitVec 6) : bselField (packFields r b a o) = b := by
  have hb := b.isLt
  have ha := a.isLt
  have ho := o.isLt
  apply BitVec.eq_of_toNat_eq
  simp only [bselField, BitVec.extractLsb'_toNat, packFields_toNat, Nat.shiftRight_eq_div_pow]
  omega

theorem aselField_packFields (r : BitVec 6) (b a : BitVec 2) (o : BitVec 6) : aselField (packFields r b a o) = a := by
  have ha := a.isLt
  have ho := o.isLt
  apply BitVec.eq_of_toNat_eq
  simp only [aselField, BitVec.extractLsb'_toNat, packFields_toNat, Nat.shiftRight_eq_div_pow]
  omega

theorem opcField_packFields (r : BitVec 6) (b a : BitVec 2) (o : BitVec 6) : opcField (packFields r b a o) = o := by
  have ho := o.isLt
  apply BitVec.eq_of_toNat_eq
  simp only [opcField, BitVec.extractLsb'_toNat, packFields_toNat, Nat.shiftRight_eq_div_pow]
  omega

theorem packFields_fields (w : CommandWord) : packFields (rsvField w) (bselField w) (aselField w) (opcField w) = w := by
  have hw := w.isLt
  apply BitVec.eq_of_toNat_eq
  simp only [packFields_toNat, rsvField, bselField, aselField, opcField, BitVec.extractLsb'_toNat,
    Nat.shiftRight_eq_div_pow]
  omega

@[simp] theorem decodeASel_bits (a : ASel) : decodeASel a.bits = some a := by cases a <;> rfl

@[simp] theorem decodeBSel_bits (b : BSel) : decodeBSel b.bits = b := by cases b <;> rfl

end Sys2Proof
end

