-- ==== Sys2Proof/Laws/State.lean ====
section
/-! SUPPORT. Sys2Proof/Laws/State.lean: each update of the state as a record, and one lemma for each field of each update.
A field whose type holds the width is compared after `State.wexp` is seen to be unchanged, by definition. -/

namespace Sys2Proof.Machine

section
variable (s : State)

theorem State.writeR0_eq (v : BitVec s.width) : s.writeR0 v = { s with r0 := some v } := rfl
@[simp] theorem State.writeR0_wexp (v : BitVec s.width) : (s.writeR0 v).wexp = s.wexp := rfl
@[simp] theorem State.writeR0_r0 (v : BitVec s.width) : (s.writeR0 v).r0 = some v := rfl
@[simp] theorem State.writeR0_r1 (v : BitVec s.width) : (s.writeR0 v).r1 = s.r1 := rfl
@[simp] theorem State.writeR0_cf (v : BitVec s.width) : (s.writeR0 v).cf = s.cf := rfl
@[simp] theorem State.writeR0_code (v : BitVec s.width) : (s.writeR0 v).code = s.code := rfl
@[simp] theorem State.writeR0_dzs (v : BitVec s.width) : (s.writeR0 v).dzs = s.dzs := rfl
@[simp] theorem State.writeR0_ils (v : BitVec s.width) : (s.writeR0 v).ils = s.ils := rfl
@[simp] theorem State.writeR0_uos (v : BitVec s.width) : (s.writeR0 v).uos = s.uos := rfl
@[simp] theorem State.writeR0_ports (v : BitVec s.width) : (s.writeR0 v).ports = s.ports := rfl
@[simp] theorem State.writeR0_pending (v : BitVec s.width) : (s.writeR0 v).pending = s.pending := rfl

theorem State.writeR1_eq (v : BitVec s.width) : s.writeR1 v = { s with r1 := some v } := rfl
@[simp] theorem State.writeR1_wexp (v : BitVec s.width) : (s.writeR1 v).wexp = s.wexp := rfl
@[simp] theorem State.writeR1_r0 (v : BitVec s.width) : (s.writeR1 v).r0 = s.r0 := rfl
@[simp] theorem State.writeR1_r1 (v : BitVec s.width) : (s.writeR1 v).r1 = some v := rfl
@[simp] theorem State.writeR1_cf (v : BitVec s.width) : (s.writeR1 v).cf = s.cf := rfl
@[simp] theorem State.writeR1_code (v : BitVec s.width) : (s.writeR1 v).code = s.code := rfl
@[simp] theorem State.writeR1_dzs (v : BitVec s.width) : (s.writeR1 v).dzs = s.dzs := rfl
@[simp] theorem State.writeR1_ils (v : BitVec s.width) : (s.writeR1 v).ils = s.ils := rfl
@[simp] theorem State.writeR1_uos (v : BitVec s.width) : (s.writeR1 v).uos = s.uos := rfl
@[simp] theorem State.writeR1_ports (v : BitVec s.width) : (s.writeR1 v).ports = s.ports := rfl
@[simp] theorem State.writeR1_pending (v : BitVec s.width) : (s.writeR1 v).pending = s.pending := rfl

theorem State.writePair_eq (v w : BitVec s.width) : s.writePair v w = { s with r0 := some v, r1 := some w } := rfl
@[simp] theorem State.writePair_wexp (v w : BitVec s.width) : (s.writePair v w).wexp = s.wexp := rfl
@[simp] theorem State.writePair_r0 (v w : BitVec s.width) : (s.writePair v w).r0 = some v := rfl
@[simp] theorem State.writePair_r1 (v w : BitVec s.width) : (s.writePair v w).r1 = some w := rfl
@[simp] theorem State.writePair_cf (v w : BitVec s.width) : (s.writePair v w).cf = s.cf := rfl
@[simp] theorem State.writePair_code (v w : BitVec s.width) : (s.writePair v w).code = s.code := rfl
@[simp] theorem State.writePair_dzs (v w : BitVec s.width) : (s.writePair v w).dzs = s.dzs := rfl
@[simp] theorem State.writePair_ils (v w : BitVec s.width) : (s.writePair v w).ils = s.ils := rfl
@[simp] theorem State.writePair_uos (v w : BitVec s.width) : (s.writePair v w).uos = s.uos := rfl
@[simp] theorem State.writePair_ports (v w : BitVec s.width) : (s.writePair v w).ports = s.ports := rfl
@[simp] theorem State.writePair_pending (v w : BitVec s.width) : (s.writePair v w).pending = s.pending := rfl

theorem State.writeCf_eq (c : Bool) : s.writeCf c = { s with cf := some c } := rfl
@[simp] theorem State.writeCf_wexp (c : Bool) : (s.writeCf c).wexp = s.wexp := rfl
@[simp] theorem State.writeCf_r0 (c : Bool) : (s.writeCf c).r0 = s.r0 := rfl
@[simp] theorem State.writeCf_r1 (c : Bool) : (s.writeCf c).r1 = s.r1 := rfl
@[simp] theorem State.writeCf_cf (c : Bool) : (s.writeCf c).cf = some c := rfl
@[simp] theorem State.writeCf_code (c : Bool) : (s.writeCf c).code = s.code := rfl
@[simp] theorem State.writeCf_dzs (c : Bool) : (s.writeCf c).dzs = s.dzs := rfl
@[simp] theorem State.writeCf_ils (c : Bool) : (s.writeCf c).ils = s.ils := rfl
@[simp] theorem State.writeCf_uos (c : Bool) : (s.writeCf c).uos = s.uos := rfl
@[simp] theorem State.writeCf_ports (c : Bool) : (s.writeCf c).ports = s.ports := rfl
@[simp] theorem State.writeCf_pending (c : Bool) : (s.writeCf c).pending = s.pending := rfl

theorem State.complete_eq : s.complete = { s with code := .ok } := rfl
@[simp] theorem State.complete_wexp : (s.complete).wexp = s.wexp := rfl
@[simp] theorem State.complete_r0 : (s.complete).r0 = s.r0 := rfl
@[simp] theorem State.complete_r1 : (s.complete).r1 = s.r1 := rfl
@[simp] theorem State.complete_cf : (s.complete).cf = s.cf := rfl
@[simp] theorem State.complete_code : (s.complete).code = .ok := rfl
@[simp] theorem State.complete_dzs : (s.complete).dzs = s.dzs := rfl
@[simp] theorem State.complete_ils : (s.complete).ils = s.ils := rfl
@[simp] theorem State.complete_uos : (s.complete).uos = s.uos := rfl
@[simp] theorem State.complete_ports : (s.complete).ports = s.ports := rfl
@[simp] theorem State.complete_pending : (s.complete).pending = s.pending := rfl

theorem State.raise_eq (f : BlockFault) : s.raise f = { s with code := f.code, dzs := (s.dzs || f == .divz), ils := (s.ils || f == .illegal), uos := (s.uos || f == .undefOperand) } := rfl
@[simp] theorem State.raise_wexp (f : BlockFault) : (s.raise f).wexp = s.wexp := rfl
@[simp] theorem State.raise_r0 (f : BlockFault) : (s.raise f).r0 = s.r0 := rfl
@[simp] theorem State.raise_r1 (f : BlockFault) : (s.raise f).r1 = s.r1 := rfl
@[simp] theorem State.raise_cf (f : BlockFault) : (s.raise f).cf = s.cf := rfl
@[simp] theorem State.raise_code (f : BlockFault) : (s.raise f).code = f.code := rfl
@[simp] theorem State.raise_dzs (f : BlockFault) : (s.raise f).dzs = (s.dzs || f == .divz) := rfl
@[simp] theorem State.raise_ils (f : BlockFault) : (s.raise f).ils = (s.ils || f == .illegal) := rfl
@[simp] theorem State.raise_uos (f : BlockFault) : (s.raise f).uos = (s.uos || f == .undefOperand) := rfl
@[simp] theorem State.raise_ports (f : BlockFault) : (s.raise f).ports = s.ports := rfl
@[simp] theorem State.raise_pending (f : BlockFault) : (s.raise f).pending = s.pending := rfl

theorem State.resetBlock_eq : s.resetBlock = { s with r0 := none, r1 := none, cf := none, code := .ok, dzs := false, ils := false, uos := false } := rfl
@[simp] theorem State.resetBlock_wexp : (s.resetBlock).wexp = s.wexp := rfl
@[simp] theorem State.resetBlock_r0 : (s.resetBlock).r0 = none := rfl
@[simp] theorem State.resetBlock_r1 : (s.resetBlock).r1 = none := rfl
@[simp] theorem State.resetBlock_cf : (s.resetBlock).cf = none := rfl
@[simp] theorem State.resetBlock_code : (s.resetBlock).code = .ok := rfl
@[simp] theorem State.resetBlock_dzs : (s.resetBlock).dzs = false := rfl
@[simp] theorem State.resetBlock_ils : (s.resetBlock).ils = false := rfl
@[simp] theorem State.resetBlock_uos : (s.resetBlock).uos = false := rfl
@[simp] theorem State.resetBlock_ports : (s.resetBlock).ports = s.ports := rfl
@[simp] theorem State.resetBlock_pending : (s.resetBlock).pending = s.pending := rfl

theorem State.sample_eq (p : Ports s.width) : s.sample p = { s with ports := p } := rfl
@[simp] theorem State.sample_wexp (p : Ports s.width) : (s.sample p).wexp = s.wexp := rfl
@[simp] theorem State.sample_r0 (p : Ports s.width) : (s.sample p).r0 = s.r0 := rfl
@[simp] theorem State.sample_r1 (p : Ports s.width) : (s.sample p).r1 = s.r1 := rfl
@[simp] theorem State.sample_cf (p : Ports s.width) : (s.sample p).cf = s.cf := rfl
@[simp] theorem State.sample_code (p : Ports s.width) : (s.sample p).code = s.code := rfl
@[simp] theorem State.sample_dzs (p : Ports s.width) : (s.sample p).dzs = s.dzs := rfl
@[simp] theorem State.sample_ils (p : Ports s.width) : (s.sample p).ils = s.ils := rfl
@[simp] theorem State.sample_uos (p : Ports s.width) : (s.sample p).uos = s.uos := rfl
@[simp] theorem State.sample_ports (p : Ports s.width) : (s.sample p).ports = p := rfl
@[simp] theorem State.sample_pending (p : Ports s.width) : (s.sample p).pending = s.pending := rfl

end

theorem State.reset_eq_resetAt : State.reset = State.resetAt Config.buildExp := rfl

end Sys2Proof.Machine
end

