-- ==== Sys2Proof/Laws/Ops.lean ====
section
/-! SUPPORT. Sys2Proof/Laws/Ops.lean: what each shared operation can answer, said once. -/

namespace Sys2Proof.Machine

/-! ## Operands -/

theorem withA_valid {s : State} {a : ASel} {x : BitVec s.width} (effect : BitVec s.width → State)
    (h : s.opA a = some x) : withA s a effect = .next (effect x) := by
  simp only [withA, h]

theorem withA_invalid {s : State} {a : ASel} (effect : BitVec s.width → State) (h : s.opA a = none) :
    withA s a effect = .next (s.raise .undefOperand) := by
  simp only [withA, h]

theorem withA_cases {s t : State} {a : ASel} {effect : BitVec s.width → State} (h : withA s a effect = .next t) :
    (s.opA a = none ∧ t = s.raise .undefOperand) ∨ ∃ x, s.opA a = some x ∧ t = effect x := by
  cases hA : s.opA a with
  | none => rw [withA_invalid effect hA] at h; cases h; exact .inl ⟨rfl, rfl⟩
  | some x => rw [withA_valid effect hA] at h; cases h; exact .inr ⟨x, rfl, rfl⟩

theorem withAB_valid {s : State} {a : ASel} {b : BSel} {x y : BitVec s.width}
    (effect : BitVec s.width → BitVec s.width → State) (hA : s.opA a = some x) (hB : s.opB b = some y) :
    withAB s a b effect = .next (effect x y) := by
  simp only [withAB, hA, hB]

theorem withAB_invalid {s : State} {a : ASel} {b : BSel} (effect : BitVec s.width → BitVec s.width → State)
    (h : s.opA a = none ∨ s.opB b = none) : withAB s a b effect = .next (s.raise .undefOperand) := by
  cases hA : s.opA a with
  | none => simp only [withAB, hA]
  | some x =>
    cases hB : s.opB b with
    | none => simp only [withAB, hA, hB]
    | some y => simp [hA, hB] at h

theorem withAB_cases {s t : State} {a : ASel} {b : BSel} {effect : BitVec s.width → BitVec s.width → State}
    (h : withAB s a b effect = .next t) :
    ((s.opA a = none ∨ s.opB b = none) ∧ t = s.raise .undefOperand)
      ∨ ∃ x y, s.opA a = some x ∧ s.opB b = some y ∧ t = effect x y := by
  by_cases hAB : s.opA a = none ∨ s.opB b = none
  · rw [withAB_invalid effect hAB] at h; cases h; exact .inl ⟨hAB, rfl⟩
  · obtain ⟨hA, hB⟩ := not_or.mp hAB
    obtain ⟨x, hx⟩ := Option.ne_none_iff_exists'.mp hA
    obtain ⟨y, hy⟩ := Option.ne_none_iff_exists'.mp hB
    rw [withAB_valid effect hx hy] at h; cases h; exact .inr ⟨x, y, hx, hy, rfl⟩

/-- Everything a command that reads opA alone can do. -/
theorem withA_outcome (s : State) (a : ASel) (effect : BitVec s.width → State) :
    (s.opA a = none ∧ withA s a effect = .next (s.raise .undefOperand))
      ∨ ∃ x, s.opA a = some x ∧ withA s a effect = .next (effect x) := by
  cases hA : s.opA a with
  | none => exact .inl ⟨rfl, withA_invalid effect hA⟩
  | some x => exact .inr ⟨x, rfl, withA_valid effect hA⟩

/-- Everything a command that reads opA and opB can do. -/
theorem withAB_outcome (s : State) (a : ASel) (b : BSel) (effect : BitVec s.width → BitVec s.width → State) :
    ((s.opA a = none ∨ s.opB b = none) ∧ withAB s a b effect = .next (s.raise .undefOperand))
      ∨ ∃ x y, s.opA a = some x ∧ s.opB b = some y ∧ withAB s a b effect = .next (effect x y) := by
  by_cases h : s.opA a = none ∨ s.opB b = none
  · exact .inl ⟨h, withAB_invalid effect h⟩
  · obtain ⟨hA, hB⟩ := not_or.mp h
    obtain ⟨x, hx⟩ := Option.ne_none_iff_exists'.mp hA
    obtain ⟨y, hy⟩ := Option.ne_none_iff_exists'.mp hB
    exact .inr ⟨x, y, hx, hy, withAB_valid effect hx hy⟩

@[simp] theorem opA_port (s : State) : s.opA .port = some s.ports.a := rfl
@[simp] theorem opA_r0 (s : State) : s.opA .r0 = s.r0 := rfl
@[simp] theorem opA_r1 (s : State) : s.opA .r1 = s.r1 := rfl
@[simp] theorem opB_port (s : State) : s.opB .port = some s.ports.b := rfl
@[simp] theorem opB_r0 (s : State) : s.opB .r0 = s.r0 := rfl
@[simp] theorem opB_r1 (s : State) : s.opB .r1 = s.r1 := rfl
@[simp] theorem opB_zextS (s : State) : s.opB .zextS = some s.scalarOperand := rfl

/-! ## Division -/

theorem divide_zero (s : State) (r : DivResult s.width) : divide s 0 r = s.raise .divz := by simp [divide]

theorem divide_nonzero (s : State) {v : BitVec s.width} (r : DivResult s.width) (h : v ≠ 0) :
    divide s v r = (s.writePair r.quot r.rem).complete := if_neg h

/-! ## Interactions -/

theorem runCommand_error {s : State} {why : Illegal} (h : decode s.ports.cmd = .error why) :
    runCommand s = .next (s.raise .illegal) := by
  simp only [runCommand, h]

theorem runCommand_ok {s : State} {i : Instr} (h : decode s.ports.cmd = .ok i) : runCommand s = exec i s := by
  simp only [runCommand, h]

theorem step_of_pending {s : State} {act : HostAction s.width} {rest : List (HostAction s.width)}
    (h : s.pending = act :: rest) : step s = applyAction { s with pending := rest } act := by
  simp only [step, h]

theorem step_command {s : State} {p : Ports s.width} {rest : List (HostAction s.width)}
    (h : s.pending = .command p :: rest) : step s = runCommand { s with ports := p, pending := rest } :=
  step_of_pending h

theorem step_illegal {s : State} {p : Ports s.width} {rest : List (HostAction s.width)} {why : Illegal}
    (h : s.pending = .command p :: rest) (hw : decode p.cmd = .error why) :
    step s = .next (State.raise { s with ports := p, pending := rest } .illegal) :=
  (step_command h).trans (runCommand_error hw)

theorem step_withFetchWord (s : State) (nbits w : Nat) :
    step (s.withFetchWord nbits w) = runCommand (s.sample (portsOfWord s.width nbits w)) := rfl

/-! ## Runs -/

theorem run_zero (s : State) : Host.Core.run core 0 s = .next s := rfl

theorem run_succ_of_next {s t : State} (k : Nat) (h : step s = .next t) :
    Host.Core.run core (k + 1) s = Host.Core.run core k t := by
  have h' : core.step s = .next t := h
  simp only [Host.Core.run, h']

end Sys2Proof.Machine
end

