-- ==== Sys2Proof/Laws/PerInstr.lean ====
section
/-! SUPPORT. Sys2Proof/Laws/PerInstr.lean: facts about the syntax of every command, one lemma per constructor. -/

namespace Sys2Proof.Laws.EncodedWordFields

/-- RSV of the encoded word is 0 (R62), its OPC is the command's, and the row of spec/opcode_table.json that covers it is
its mnemonic's (R72). -/
def Statement (i : Instr) : Prop :=
  rsvField (encode i) = 0 ∧ opcField (encode i) = i.opcode
    ∧ ((opcodeTable.filter fun r => r.covers (encode i)).map Row.mnemonic) = [i.mnemonic]

theorem and (a : ASel) (b : BSel) : Statement (.and a b) := by cases a <;> cases b <;> (refine ⟨?_, ?_, ?_⟩ <;> decide)
theorem or (a : ASel) (b : BSel) : Statement (.or a b) := by cases a <;> cases b <;> (refine ⟨?_, ?_, ?_⟩ <;> decide)
theorem xor (a : ASel) (b : BSel) : Statement (.xor a b) := by cases a <;> cases b <;> (refine ⟨?_, ?_, ?_⟩ <;> decide)
theorem not (a : ASel) : Statement (.not a) := by cases a <;> (refine ⟨?_, ?_, ?_⟩ <;> decide)
theorem eq (a : ASel) (b : BSel) : Statement (.eq a b) := by cases a <;> cases b <;> (refine ⟨?_, ?_, ?_⟩ <;> decide)
theorem ne (a : ASel) (b : BSel) : Statement (.ne a b) := by cases a <;> cases b <;> (refine ⟨?_, ?_, ?_⟩ <;> decide)
theorem lt (a : ASel) (b : BSel) : Statement (.lt a b) := by cases a <;> cases b <;> (refine ⟨?_, ?_, ?_⟩ <;> decide)
theorem le (a : ASel) (b : BSel) : Statement (.le a b) := by cases a <;> cases b <;> (refine ⟨?_, ?_, ?_⟩ <;> decide)
theorem gt (a : ASel) (b : BSel) : Statement (.gt a b) := by cases a <;> cases b <;> (refine ⟨?_, ?_, ?_⟩ <;> decide)
theorem ge (a : ASel) (b : BSel) : Statement (.ge a b) := by cases a <;> cases b <;> (refine ⟨?_, ?_, ?_⟩ <;> decide)
theorem add (a : ASel) (b : BSel) : Statement (.add a b) := by cases a <;> cases b <;> (refine ⟨?_, ?_, ?_⟩ <;> decide)
theorem addc (a : ASel) (b : BSel) : Statement (.addc a b) := by cases a <;> cases b <;> (refine ⟨?_, ?_, ?_⟩ <;> decide)
theorem sub (a : ASel) (b : BSel) : Statement (.sub a b) := by cases a <;> cases b <;> (refine ⟨?_, ?_, ?_⟩ <;> decide)
theorem neg (a : ASel) : Statement (.neg a) := by cases a <;> (refine ⟨?_, ?_, ?_⟩ <;> decide)
theorem shl (a : ASel) : Statement (.shl a) := by cases a <;> (refine ⟨?_, ?_, ?_⟩ <;> decide)
theorem lsr (a : ASel) : Statement (.lsr a) := by cases a <;> (refine ⟨?_, ?_, ?_⟩ <;> decide)
theorem shlw (a : ASel) (b : BSel) : Statement (.shlw a b) := by cases a <;> cases b <;> (refine ⟨?_, ?_, ?_⟩ <;> decide)
theorem lsrw (a : ASel) (b : BSel) : Statement (.lsrw a b) := by cases a <;> cases b <;> (refine ⟨?_, ?_, ?_⟩ <;> decide)
theorem mul (a : ASel) (b : BSel) : Statement (.mul a b) := by cases a <;> cases b <;> (refine ⟨?_, ?_, ?_⟩ <;> decide)
theorem mulf (a : ASel) (b : BSel) : Statement (.mulf a b) := by cases a <;> cases b <;> (refine ⟨?_, ?_, ?_⟩ <;> decide)
theorem udivrem (a : ASel) (b : BSel) : Statement (.udivrem a b) := by cases a <;> cases b <;> (refine ⟨?_, ?_, ?_⟩ <;> decide)
theorem sdivrem (a : ASel) (b : BSel) : Statement (.sdivrem a b) := by cases a <;> cases b <;> (refine ⟨?_, ?_, ?_⟩ <;> decide)

end Sys2Proof.Laws.EncodedWordFields
end

