-- ==== Sys2Proof/Laws/Values.lean ====
section
/-! SUPPORT. Sys2Proof/Laws/Values.lean: the small facts of the pseudocode primitives and of the widths. -/

namespace Sys2Proof.Config

theorem width_zero : width 0 = 128 := rfl

theorem width_succ (e : Nat) : width (e + 1) = 2 * width e := by
  unfold width; rw [← Nat.add_assoc, Nat.pow_succ, Nat.mul_comm]

theorem width_pos (e : Nat) : 0 < width e := Nat.two_pow_pos _

theorem le_width (e : Nat) : 128 ≤ width e := by
  have h : 2 ^ 7 ≤ 2 ^ (7 + e) := Nat.pow_le_pow_right (by decide) (Nat.le_add_right 7 e)
  simpa [width] using h

theorem width_eq_limb (e : Nat) : width e = 64 * 2 ^ (e + 1) := by
  unfold width; rw [show 7 + e = 6 + (e + 1) by omega, Nat.pow_add]

theorem width_eq_words (e : Nat) : width e = 64 * words e := by
  have h := width_eq_limb e
  unfold words wordBits; omega

end Sys2Proof.Config

namespace Sys2Proof.Machine

theorem trunc_lt (w v : Nat) : trunc w v < 2 ^ w := Nat.mod_lt _ (Nat.two_pow_pos w)

theorem trunc_of_lt {w v : Nat} (h : v < 2 ^ w) : trunc w v = v := Nat.mod_eq_of_lt h

theorem field_lt (lo w v : Nat) : field lo w v < 2 ^ w := Nat.mod_lt _ (Nat.two_pow_pos w)

theorem word_lt (x j : Nat) : word x j < 2 ^ 64 := field_lt _ _ _

theorem limbLo_eq (h x : Nat) : limbLo h x = x % 2 ^ h := by simp [limbLo, field]

theorem limbLo_lt (h x : Nat) : limbLo h x < 2 ^ h := field_lt _ _ _

theorem limbHi_lt (h x : Nat) : limbHi h x < 2 ^ h := field_lt _ _ _

theorem limbHi_eq {h x : Nat} (hx : x < 2 ^ (2 * h)) : limbHi h x = x / 2 ^ h := by
  unfold limbHi field
  refine Nat.mod_eq_of_lt (Nat.div_lt_of_lt_mul ?_)
  rwa [← Nat.pow_add, ← Nat.two_mul]

/-- A value is its limbs: the value law of R8. -/
theorem concat_limbs {h x : Nat} (hx : x < 2 ^ (2 * h)) : concat h (limbHi h x) (limbLo h x) = x := by
  rw [limbHi_eq hx, limbLo_eq, concat, Nat.mul_comm]
  exact Nat.div_add_mod x (2 ^ h)

theorem concat_lt {h a b : Nat} (ha : a < 2 ^ h) (hb : b < 2 ^ h) : concat h a b < 2 ^ (2 * h) := by
  unfold concat
  rw [Nat.two_mul, Nat.pow_add]
  nlinarith

theorem fits_of_lt {w v : Nat} (h : v < 2 ^ w) : fits w v = some v := if_pos h

theorem fits_eq_some {w v x : Nat} : fits w v = some x ↔ v < 2 ^ w ∧ v = x := by
  unfold fits; split <;> simp_all

theorem wordBase_eq : wordBase = 2 ^ 64 := rfl

theorem fromWords_append (xs ys : List Nat) :
    fromWords (xs ++ ys) = fromWords xs + wordBase ^ xs.length * fromWords ys := by
  induction xs with
  | nil => simp [fromWords]
  | cons x xs ih => simp only [List.cons_append, fromWords, ih, List.length_cons, Nat.pow_succ]; ring

theorem fromWords_lt (xs : List Nat) (h : ∀ x ∈ xs, x < 2 ^ 64) : fromWords xs < wordBase ^ xs.length := by
  induction xs with
  | nil => simp [fromWords]
  | cons x xs ih =>
    have hx : x < wordBase := h x List.mem_cons_self
    have hr := ih fun y hy => h y (List.mem_cons_of_mem x hy)
    simp only [fromWords, List.length_cons, Nat.pow_succ]
    nlinarith

end Sys2Proof.Machine
end

