-- ==== Sys2Proof/Tests/Slice0.lean ====
section
/-! SUPPORT. Sys2Proof/Tests/Slice0.lean: tests whose expected results come from the spec (spec/95_test_vectors.md and the
rules' examples), and for every statement with hypotheses a witness that meets them. Words are written out as
RSV BSEL ASEL OPC (spec/30_encoding.md R60). -/

namespace Sys2Proof.Tests

open Sys2Proof.Machine Sys2Proof.Claims

/-! ## Decoding: one word of every command, written out from R60, R63, R64 and R67 -/

theorem test_decode_and : decode 0b0000000100000001 = .ok (.and .port .r0) := by decide
theorem test_decode_or : decode 0b0000000001000010 = .ok (.or .r0 .port) := by decide
theorem test_decode_xor : decode 0b0000001110000011 = .ok (.xor .r1 .zextS) := by decide
theorem test_decode_not : decode 0b0000000000000100 = .ok (.not .port) := by decide
theorem test_decode_eq : decode 0b0000000101001000 = .ok (.eq .r0 .r0) := by decide
theorem test_decode_ne : decode 0b0000000010001001 = .ok (.ne .r1 .port) := by decide
theorem test_decode_lt : decode 0b0000001100001010 = .ok (.lt .port .zextS) := by decide
theorem test_decode_le : decode 0b0000001001001011 = .ok (.le .r0 .r1) := by decide
theorem test_decode_gt : decode 0b0000000110001100 = .ok (.gt .r1 .r0) := by decide
theorem test_decode_ge : decode 0b0000000000001101 = .ok (.ge .port .port) := by decide
theorem test_decode_add : decode 0b0000001101010000 = .ok (.add .r0 .zextS) := by decide
theorem test_decode_addc : decode 0b0000001010010001 = .ok (.addc .r1 .r1) := by decide
theorem test_decode_sub : decode 0b0000000100010010 = .ok (.sub .port .r0) := by decide
theorem test_decode_neg : decode 0b0000000001010011 = .ok (.neg .r0) := by decide
theorem test_decode_shl : decode 0b0000000010011000 = .ok (.shl .r1) := by decide
theorem test_decode_lsr : decode 0b0000000000011001 = .ok (.lsr .port) := by decide
theorem test_decode_shlw : decode 0b0000000101011010 = .ok (.shlw .r0 .r0) := by decide
theorem test_decode_lsrw : decode 0b0000000010011011 = .ok (.lsrw .r1 .port) := by decide
theorem test_decode_mul : decode 0b0000001100100000 = .ok (.mul .port .zextS) := by decide
theorem test_decode_mulf : decode 0b0000001001100001 = .ok (.mulf .r0 .r1) := by decide
theorem test_decode_udivrem : decode 0b0000000110101000 = .ok (.udivrem .r1 .r0) := by decide
theorem test_decode_sdivrem : decode 0b0000000000101001 = .ok (.sdivrem .port .port) := by decide

/-- V11's words (spec/95_test_vectors.md). -/
theorem test_decode_V11 :
    decode 0x0382 = .ok (.or .r1 .zextS) ∧ decode 0x024D = .ok (.ge .r0 .r1) ∧ decode 0x0099 = .ok (.lsr .r1)
      ∧ decode 0x035A = .ok (.shlw .r0 .zextS) ∧ decode 0x01A9 = .ok (.sdivrem .r1 .r0) := by decide

theorem test_table_word_add : decodeTableWord 16 0x0350 = some (.add .r0 .zextS) := by decide

theorem test_table_word_zero : decodeTableWord 16 0 = none := by decide

/-! ## The smoke test of WellFormed: an ill-formed term for each check (R69, R173; R73) -/

theorem test_illegal_rsv : legalWord 0x0410 = false ∧ decode 0x0410 = .error .rsv := by decide
theorem test_illegal_opc : legalWord 0x0000 = false ∧ decode 0x0000 = .error .opc := by decide
theorem test_illegal_asel : legalWord 0x00D0 = false ∧ decode 0x00D0 = .error .asel := by decide
theorem test_illegal_bsel : legalWord 0x0104 = false ∧ decode 0x0104 = .error .bsel := by decide
theorem test_line_shape : (AsmLine.mk .not [.r0, .r1]).wellFormed 256 = false := by decide
theorem test_line_zx_first : (AsmLine.mk .add [.zx 1, .r1]).wellFormed 256 = false := by decide
theorem test_line_port_too_large : (AsmLine.mk .add [.num (2 ^ 256), .r1]).wellFormed 256 = false := by decide
theorem test_line_scalar_too_large : (AsmLine.mk .add [.r0, .zx (2 ^ 64)]).wellFormed 256 = false := by decide
theorem test_line_amount_register : (AsmLine.mk .shl [.r0, .r1]).wellFormed 256 = false := by decide
theorem test_line_accepted : (AsmLine.mk .shl [.num 1, .num 256]).wellFormed 256 = true := by decide

/-! ## The commands: vectors of spec/95_test_vectors.md at N = 256 -/

/-- What the host reads after the command on these ports, from a state with these registers. -/
def after (r0 r1 : Option Nat) (cf : Option Bool) (cmd a b s : Nat) : Option HostView :=
  let start : State :=
    { State.reset with
      r0 := r0.map (BitVec.ofNat _)
      r1 := r1.map (BitVec.ofNat _)
      cf := cf
      pending := [.command ⟨BitVec.ofNat 16 cmd, BitVec.ofNat _ a, BitVec.ofNat _ b, BitVec.ofNat 64 s⟩] }
  match step start with
  | .next t => some t.view
  | .fault _ => none
  | .refused _ => none

/-- The x of V4 and V5. -/
def xV4 : Nat := 2 ^ 255 + 2 ^ 128 + 1

/-- V1. -/
theorem test_and : after none none none 0x0001 0xff00 0xff0 0 = some ⟨some 0xf00, none, none, 0x20⟩ := by decide

/-- V1. -/
theorem test_or : after none none none 0x0002 (2 ^ 255 + 1) (2 ^ 255) 0 = some ⟨some (2 ^ 255 + 1), none, none, 0x20⟩ := by decide

/-- V1. -/
theorem test_xor : after none none none 0x0003 (2 ^ 256 - 1) 0x1234 0 = some ⟨some (2 ^ 256 - 1 - 0x1234), none, none, 0x20⟩ := by decide

/-- V1. -/
theorem test_not : after none none none 0x0004 0x123456789abcdef 0 0 = some ⟨some (2 ^ 256 - 1 - 0x123456789abcdef), none, none, 0x20⟩ := by decide

/-- R91's example. -/
theorem test_eq : after none none none 0x0008 (2 ^ 255) (2 ^ 255) 0 = some ⟨none, none, some true, 0x80⟩ := by decide

/-- R92's example. -/
theorem test_ne : after none none none 0x0009 1 (2 ^ 128 + 1) 0 = some ⟨none, none, some true, 0x80⟩ := by decide

/-- R93's example. -/
theorem test_lt : after none none none 0x000A (2 ^ 128 - 1) (2 ^ 128) 0 = some ⟨none, none, some true, 0x80⟩ := by decide

/-- V2. -/
theorem test_lt_unsigned : after none none none 0x000A (2 ^ 255) 1 0 = some ⟨none, none, some false, 0x80⟩ := by decide

/-- R94's example. -/
theorem test_le : after none none none 0x000B 7 7 0 = some ⟨none, none, some true, 0x80⟩ := by decide

/-- R95's example. -/
theorem test_gt : after none none none 0x000C (2 ^ 256 - 1) 0 0 = some ⟨none, none, some true, 0x80⟩ := by decide

/-- R96's example. -/
theorem test_ge : after none none none 0x000D 0 1 0 = some ⟨none, none, some false, 0x80⟩ := by decide

/-- R102's example. -/
theorem test_add : after none none none 0x0310 (2 ^ 256 - 1) 0 2 = some ⟨some 1, none, none, 0x20⟩ := by decide

/-- R65's example. -/
theorem test_add_r0_r0 : after (some 5) none none 0x0150 0 0 0 = some ⟨some 10, none, none, 0x20⟩ := by decide

/-- R103's example. -/
theorem test_addc : after none none none 0x0311 (2 ^ 256 - 1) 0 1 = some ⟨some 0, none, some true, 0xA0⟩ := by decide

/-- E5. -/
theorem test_sub : after none none none 0x0012 0 1 0 = some ⟨some (2 ^ 256 - 1), none, none, 0x20⟩ := by decide

/-- V3. -/
theorem test_neg : after none none none 0x0013 (2 ^ 128) 0 0 = some ⟨some (2 ^ 256 - 2 ^ 128), none, none, 0x20⟩ := by decide

/-- V4. -/
theorem test_shl : after none none none 0x0018 xV4 0 129 = some ⟨some (2 ^ 129), none, none, 0x20⟩ := by decide

/-- E3. -/
theorem test_shl_full : after none none none 0x0018 1 0 256 = some ⟨some 0, none, none, 0x20⟩ := by decide

/-- V4. -/
theorem test_lsr : after none none none 0x0019 xV4 0 127 = some ⟨some 0x100000000000000000000000000000002, none, none, 0x20⟩ := by decide

/-- V4. -/
theorem test_lsr_largest : after none none none 0x0019 xV4 0 18446744073709551615 = some ⟨some 0, none, none, 0x20⟩ := by decide

/-- V5. -/
theorem test_shlw : after none none none 0x001A xV4 0x80 0 = some ⟨some (2 ^ 128), none, none, 0x20⟩ := by decide

/-- V5. -/
theorem test_shlw_high_word : after none none none 0x001A xV4 0x10000000000000001 0 = some ⟨some 0, none, none, 0x20⟩ := by decide

/-- V5. -/
theorem test_lsrw : after none none none 0x001B xV4 0xff 0 = some ⟨some 1, none, none, 0x20⟩ := by decide

/-- R124's example. -/
theorem test_lsrw_high_word : after none none none 0x001B (2 ^ 255) (2 ^ 128 + 1) 0 = some ⟨some 0, none, none, 0x20⟩ := by decide

/-- R134's example. -/
theorem test_mul : after none none none 0x0320 (2 ^ 255) 0 3 = some ⟨some (2 ^ 255), none, none, 0x20⟩ := by decide

/-- R133's example. -/
theorem test_mulf : after none none none 0x0021 (2 ^ 256 - 1) (2 ^ 256 - 1) 0 = some ⟨some 1, some (2 ^ 256 - 2), none, 0x60⟩ := by decide

/-- E4. -/
theorem test_udivrem : after none none none 0x0028 7 2 0 = some ⟨some 3, some 1, none, 0x60⟩ := by decide

/-- V10. -/
theorem test_udivrem_keeps_registers_on_divz : after (some 9) (some 4) (some true) 0x0368 0 0 0 = some ⟨some 9, some 4, some true, 0xE5⟩ := by decide

/-- R157's example. -/
theorem test_sdivrem : after none none none 0x0029 (2 ^ 256 - 7) 2 0 = some ⟨some (2 ^ 256 - 3), some (2 ^ 256 - 1), none, 0x60⟩ := by decide

/-- V8. -/
theorem test_sdivrem_min_by_minus_one : after none none none 0x0029 (2 ^ 255) (2 ^ 256 - 1) 0 = some ⟨some (2 ^ 255), some 0, none, 0x60⟩ := by decide

/-! ## Faults: V10 -/

/-- V10. -/
theorem test_fault_illegal_zero_word : after none none none 0x0000 0 0 0 = some ⟨none, none, none, 0x0A⟩ := by decide

/-- V10. -/
theorem test_fault_illegal_before_undef : after none none none 0x0045 0 0 0 = some ⟨none, none, none, 0x0A⟩ := by decide

/-- V10. -/
theorem test_fault_undef : after (some 5) none none 0x0290 1 0 0 = some ⟨some 5, none, none, 0x33⟩ := by decide

/-- V10. -/
theorem test_fault_undef_before_divz : after none (some 0) none 0x0268 0 0 0 = some ⟨none, some 0, none, 0x53⟩ := by decide

/-- V10. -/
theorem test_fault_divz_signed : after none none none 0x0029 (2 ^ 255) 0 0 = some ⟨none, none, none, 0x05⟩ := by decide

/-- The row of the opcode table with zeros for the selectors runs first after reset. -/
theorem test_withFetchWord_runs_first :
    (match step (State.reset.withFetchWord 16 0x0001) with
      | .next t => t.view == ⟨some 0, none, none, 0x20⟩ && t.pending.isEmpty
      | .fault _ => false
      | .refused _ => false) = true := by decide

/-! ## The other widths: R126's rows at N = 128 (its H is 64) and N = 512 -/

theorem test_shl_other_widths :
    (shiftLeft (3#128) 127).toNat = 2 ^ 127 ∧ (shiftLeft (3#128) 128).toNat = 0
      ∧ (shiftRight (BitVec.ofNat 512 (2 ^ 511)) 511).toNat = 1 := by decide +kernel

/-! ## The internal algorithms: the traces of V9 and V7 -/

theorem test_algorithmD_T1 :
    algorithmD 4 0x7fffffffffffffff800000000000000000000000000000000000000000000000
        0x800000000000000000000000000000000000000000000001
      = some (0xfffffffffffffffe, 0x7fffffffffffffffffffffffffffffff0000000000000002) := by decide +kernel

theorem test_algorithmD_T2 :
    algorithmD 4 0x800000000000000000000000000000000000000000000003 0x200000000000000000000000000000000000000000000001
      = some (3, 0x200000000000000000000000000000000000000000000000) := by decide +kernel

theorem test_algorithmD_T3 :
    algorithmD 4 0x8000000000000000fffffffffffffffe0000000000000000 0x8000000000000000ffffffffffffffff
      = some (0xffffffffffffffff, 0x7fffffffffffffffffffffffffffffff) := by decide +kernel

theorem test_algorithmD_T4 :
    algorithmD 4 (2 ^ 255) 0x8000000000000000ffffffffffffffff
      = some (0xfffffffffffffffe0000000000000005, 0x7ffffffffffffff90000000000000005) := by decide +kernel

/-- T2's normalization: s = 2, vn[2] = 2^63, vn[1] = 0, vn[0] = 4, un[3] = 2. -/
theorem test_normalize_T2 :
    (normalize 0x800000000000000000000000000000000000000000000003 0x200000000000000000000000000000000000000000000001 3 3).shift = 2
      ∧ (normalize 0x800000000000000000000000000000000000000000000003 0x200000000000000000000000000000000000000000000001 3 3).vn
          = [4, 0, 2 ^ 63]
      ∧ entry (normalize 0x800000000000000000000000000000000000000000000003
          0x200000000000000000000000000000000000000000000001 3 3).un 3 = 2 := by decide +kernel

/-- V7, short division by 10. -/
theorem test_shortDivision :
    shortDivision 4 (2 ^ 256 - 1) 10
      = some (0x1999999999999999999999999999999999999999999999999999999999999999, 5) := by decide +kernel

/-- R103's carry through k3 alone. -/
theorem test_carryChain_k3 : carryChain 1 (2 ^ 256 - 1) 1 = (0, 1) := by decide +kernel

/-- V6. -/
theorem test_multipliers :
    limbFullMul 2 (2 ^ 256 - 1) 7 = some (7 * 2 ^ 256 - 7) ∧ schoolbookFull 4 (2 ^ 256 - 1) 7 = some (7 * 2 ^ 256 - 7)
      ∧ limbTruncMul 1 (2 ^ 255) 3 = some (2 ^ 255) ∧ schoolbookTrunc 4 (2 ^ 255) 3 = some (2 ^ 255) := by decide +kernel

/-- V4 at 129, by the limb and the word-array forms. -/
theorem test_shift_forms :
    limbShift 1 .left xV4 129 = some (2 ^ 129) ∧ shlWords 4 xV4 129 = some (2 ^ 129)
      ∧ limbShift 1 .right xV4 129 = some (2 ^ 126) ∧ lsrWords 4 xV4 129 = some (2 ^ 126) := by decide +kernel

/-! ## The assembler: P1's and P4's lines -/

theorem test_assemble_mov : assembleText 256 "MOV #7" = some ⟨0x0302, 7, 0, 0⟩ := by decide +kernel

theorem test_assemble_case_and_comment : assembleText 256 "mul R0, zx(16) ; P1" = some ⟨0x0360, 0, 0, 16⟩ := by
  decide +kernel

theorem test_assemble_number_forms : assembleText 256 "SHL #2^255-1, #0x10" = some ⟨0x0018, 2 ^ 255 - 1, 0, 16⟩ := by
  decide +kernel

theorem test_assemble_too_large : assembleText 256 "MOV #2^256" = none := by decide +kernel

/-- R50: byte 0 is the most significant. -/
theorem test_storeImage : storeImage (BitVec.ofNat 128 (0xAB * 2 ^ 120 + 0xCD)) = [0xAB] ++ List.replicate 14 0 ++ [0xCD] := by
  decide +kernel

/-! ## Witnesses: for every statement with hypotheses, a state and operands that meet them -/

/-- R0 = 5 and R1 = 3 valid, A = 7, B = 2, S = 1. -/
def ready : State := { State.reset with r0 := some 5, r1 := some 3, ports := ⟨0, 7, 2, 1⟩ }

/-- The same with S = 0. -/
def readyS0 : State := { ready with ports := ⟨0, 7, 2, 0⟩ }

/-- The same with the largest S. -/
def readySMax : State := { ready with ports := ⟨0, 7, 2, 0xFFFFFFFFFFFFFFFF⟩ }

/-- R0 valid, R1 not. -/
def half : State := { ready with r1 := none }

/-- The ports of a word, with A = 7, B = 0 and S = 1. -/
def portsFor (w : Nat) : Ports ready.width := ⟨BitVec.ofNat 16 w, 7, 0, 1⟩

/-- A state in which the word is presented next. -/
def presenting (w : Nat) : State := { ready with pending := [.command (portsFor w)] }

/-- What the hypotheses of FaultsIllegal ask of a word with an opcode. -/
abbrev meetsIllegal (opc w : Nat) (bad : Bool) : Prop :=
  (presenting w).pending = [.command (portsFor w)] ∧ opcNumber (portsFor w).cmd = opc ∧ bad = true

/-- Every clause of TwoOperandRule has its hypotheses met: RSV at 1 and at 63, ASEL = 3; all operands valid; A or B not
valid. -/
abbrev meetsTwoOperand (opc : Nat) : Prop :=
  meetsIllegal opc (opc + 1024) (rsvNumber (portsFor (opc + 1024)).cmd != 0)
    ∧ meetsIllegal opc (opc + 64512) (rsvNumber (portsFor (opc + 64512)).cmd != 0)
    ∧ meetsIllegal opc (opc + 192) (aselNumber (portsFor (opc + 192)).cmd == 3)
    ∧ (operandA ready .port = some 7 ∧ operandA ready .r0 = some 5 ∧ operandA ready .r1 = some 3)
    ∧ (operandB ready .port = some 2 ∧ operandB ready .r0 = some 5 ∧ operandB ready .r1 = some 3
        ∧ operandB ready .zextS = some 1)
    ∧ operandA half .r1 = none ∧ operandB half .r1 = none ∧ operandA State.reset .r0 = none
    ∧ operandB State.reset .r0 = none

/-- The same for OneOperandRule, whose illegal words include BSEL at 1 and at 3. -/
abbrev meetsOneOperand (opc : Nat) : Prop :=
  meetsTwoOperand opc ∧ meetsIllegal opc (opc + 256) (bselNumber (portsFor (opc + 256)).cmd != 0)
    ∧ meetsIllegal opc (opc + 768) (bselNumber (portsFor (opc + 768)).cmd != 0)

/-- The same for DivisionRule: a divisor that is not 0, and a zero divisor on the B port. -/
abbrev meetsDivision (opc : Nat) : Prop :=
  meetsTwoOperand opc ∧ (2 : BitVec ready.width) ≠ 0
    ∧ operandB { ready with ports := portsFor opc } .port = some 0

theorem witness_BitwiseCommands : meetsTwoOperand 0x01 ∧ meetsTwoOperand 0x02 ∧ meetsTwoOperand 0x03 := by
  refine ⟨?_, ?_, ?_⟩ <;> decide
theorem witness_NotCommand : meetsOneOperand 0x04 := by decide
theorem witness_ComparisonCommands_equality : meetsTwoOperand 0x08 ∧ meetsTwoOperand 0x09 := by decide
theorem witness_ComparisonCommands_order :
    meetsTwoOperand 0x0A ∧ meetsTwoOperand 0x0B ∧ meetsTwoOperand 0x0C ∧ meetsTwoOperand 0x0D := by
  refine ⟨?_, ?_, ?_, ?_⟩ <;> decide
theorem witness_AddCommand : meetsTwoOperand 0x10 := by decide
theorem witness_AddcCommand : meetsTwoOperand 0x11 := by decide
theorem witness_SubCommand : meetsTwoOperand 0x12 := by decide
theorem witness_NegCommand : meetsOneOperand 0x13 ∧ 0 < 2 ^ Config.width 1 := ⟨by decide, by decide⟩
theorem witness_ScalarShiftCommands : meetsOneOperand 0x18 ∧ meetsOneOperand 0x19 := by decide
theorem witness_WideShiftCommands : meetsTwoOperand 0x1A ∧ meetsTwoOperand 0x1B := by decide
theorem witness_MulCommand : meetsTwoOperand 0x20 := by decide
theorem witness_MulfCommand : meetsTwoOperand 0x21 := by decide
theorem witness_UdivremCommand : meetsDivision 0x28 := by decide
theorem witness_SdivremCommand : meetsDivision 0x29 := by decide

theorem witness_EncodeOfDecode : decode 0x0191 = .ok (.addc .r1 .r0) := by decide

theorem witness_LegalWordCounts :
    opcNumber 0x0104 ∈ [0x04, 0x13, 0x18, 0x19] ∧ bselNumber 0x0104 ≠ 0
      ∧ opcNumber 0x0319 ∈ [0x04, 0x13, 0x18, 0x19] ∧ bselNumber 0x0319 ≠ 0 := by decide

/-- Each shape of RestAsWritten, with numbers at the top of their ports. -/
theorem witness_AssemblerAcceptsExactlyTheWellFormedLines :
    assemble 256 ⟨.mov, [.num 7]⟩ = some ⟨0x0302, 7, 0, 0⟩
      ∧ assemble 256 ⟨.dec, [.r1]⟩ = some ⟨0x0392, 0, 0, 1⟩
      ∧ assemble 256 ⟨.neg, [.r0]⟩ = some ⟨0x0053, 0, 0, 0⟩
      ∧ assemble 256 ⟨.lsr, [.r1, .num (2 ^ 64 - 1)]⟩ = some ⟨0x0099, 0, 0, 0xFFFFFFFFFFFFFFFF⟩
      ∧ assemble 256 ⟨.ge, [.r0, .num (2 ^ 256 - 1)]⟩ = some ⟨0x004D, 0, BitVec.allOnes 256, 0⟩ := by
  refine ⟨?_, ?_, ?_, ?_, ?_⟩ <;> decide +kernel

theorem witness_PseudoInstructionsExpandAndAct :
    (operandA readyS0 .r0 = some 5 ∧ readyS0.ports.s = 0) ∧ operandA ready .r0 = some 5 ∧ ready.ports.s = 1 := by decide

theorem witness_StepRunsTheDecodedCommand :
    (presenting 0x0010).pending = [.command (portsFor 0x0010)]
      ∧ decode (portsFor 0x0010).cmd = .ok (.add .port .port) ∧ State.reset.pending = [] := by decide

/-- Two interactions: j at the start, inside and at the end of the run. -/
theorem witness_RunEndsAfterAsManyStepsAsInteractions :
    ∀ j ∈ [0, 1, 2], j ≤ (State.pending { ready with pending := [.read, .reset] }).length := by decide

/-- Each of R69's four conditions, the reserved opcodes at the ends of their ranges. -/
theorem witness_IllegalWordFaults :
    (presenting 0x0410).pending = [.command (portsFor 0x0410)] ∧ rsvNumber (portsFor 0x0410).cmd ≠ 0
      ∧ (∀ n ∈ [0x00, 0x07, 0x0E, 0x14, 0x1F, 0x22, 0x27, 0x2A, 0x3F],
          opcNumber (portsFor n).cmd ∈ reservedOpcodes)
      ∧ aselNumber (portsFor 0x00D0).cmd = 3
      ∧ opcNumber (portsFor 0x0104).cmd ∈ [0x04, 0x13, 0x18, 0x19] ∧ bselNumber (portsFor 0x0104).cmd ≠ 0 := by decide

/-- Each disjunct of R171, and a command that selects only valid operands. -/
theorem witness_UndefOperandExactlyOnInvalidSelection :
    selectsInvalid (.add .r0 .port) State.reset ∧ selectsInvalid (.add .r1 .port) half
      ∧ selectsInvalid (.add .port .r0) State.reset ∧ selectsInvalid (.add .port .r1) half
      ∧ ¬ selectsInvalid (.add .r0 .r1) ready :=
  ⟨.inl ⟨rfl, rfl⟩, .inr (.inl ⟨rfl, rfl⟩), .inr (.inr (.inl ⟨rfl, rfl⟩)), .inr (.inr (.inr ⟨rfl, rfl⟩)), by
    simp [selectsInvalid, Instr.asel, Instr.bsel, ready]⟩

/-- The code that a step answers, none where it does not answer a next state. -/
def codeAfter (s : State) : Option Code :=
  match step s with
  | .next t => some t.code
  | .fault _ => none
  | .refused _ => none

/-- The state that a step answers, for a step that answers one. -/
def next (s : State) : State :=
  match step s with
  | .next t => t
  | .fault _ => s
  | .refused _ => s

/-- Each of the three faults. -/
theorem witness_FaultWritesOnlyTheStatus :
    ((presenting 0x0028).pending = [.command (portsFor 0x0028)] ∧ step (presenting 0x0028) = .next (next (presenting 0x0028))
        ∧ (next (presenting 0x0028)).code = .divz)
      ∧ (step (presenting 0x0000) = .next (next (presenting 0x0000)) ∧ (next (presenting 0x0000)).code = .illegal)
      ∧ codeAfter { half with pending := [.command (portsFor 0x0290)] } = some .undefOperand :=
  ⟨⟨rfl, rfl, by decide⟩, ⟨rfl, by decide⟩, by decide⟩

/-- Each clause of R175. -/
theorem witness_FaultPriority :
    illegalWord (portsFor 0x0045).cmd ∧ decode (portsFor 0x0268).cmd = .ok (.udivrem .r0 .r1)
      ∧ selectsInvalid (.udivrem .r0 .r1) half
      ∧ (¬ selectsInvalid (.udivrem .r0 .port) ready ∧ dividesByZero (.udivrem .r0 .port) { ready with ports := portsFor 0x0068 })
      ∧ ¬ selectsInvalid (.add .r0 .r1) ready ∧ ¬ dividesByZero (.add .r0 .r1) ready :=
  ⟨.inr (.inl (by decide)), by decide, .inr (.inr (.inr ⟨rfl, rfl⟩)),
    ⟨by simp [selectsInvalid, Instr.asel, Instr.bsel, ready], .r0, .port, .inl rfl, by decide⟩,
    by simp [selectsInvalid, Instr.asel, Instr.bsel, ready], by simp [dividesByZero]⟩

/-- A command that completes and one that faults. -/
theorem witness_CommandWritesExactlyItsRow :
    codeAfter (presenting 0x0010) = some .ok ∧ codeAfter (presenting 0x0028) = some .divz := by decide

/-- A run of one command that faults, from a state with no sticky bit. -/
theorem witness_StickyBitsRecordEveryFault :
    (presenting 0x0028).onlyCommands = true ∧ 1 ≤ (presenting 0x0028).pending.length
      ∧ Host.Core.run core 1 (presenting 0x0028) = .next (next (presenting 0x0028))
      ∧ (next (presenting 0x0028)).code = .divz := ⟨by decide, by decide, rfl, by decide⟩

theorem witness_HostImageRoundTrips : 31 < Config.width 1 / 8 := by decide

theorem witness_StepKeepsTheStatusConsistent :
    (presenting 0x0028).consistent = true ∧ step (presenting 0x0028) = .next (next (presenting 0x0028)) := ⟨by decide, rfl⟩

theorem witness_ValidBitsAreClearedOnlyByReset :
    (presenting 0x0028).pending = [.command (portsFor 0x0028)]
      ∧ step (presenting 0x0028) = .next (next (presenting 0x0028)) ∧ (presenting 0x0028).r0.isSome = true := ⟨rfl, rfl, rfl⟩

theorem witness_ResetClearsValidBitsAndStatus :
    State.pending { ready with pending := [.reset] } = [.reset] := rfl

theorem witness_ResetDuringACommandAbandonsIt :
    State.pending { ready with pending := [.resetDuring (portsFor 0x0010)] } = [.resetDuring (portsFor 0x0010)] := rfl

theorem witness_HostReadHasNoEffect :
    State.pending { ready with pending := [.read] } = [.read] ∧ ready.r0 = some 5 ∧ ready.r1 = some 3 := ⟨rfl, rfl, rfl⟩

/-- Other values on every port that ADD R0, R1 does not read, and on the B port of SHL. -/
theorem witness_UnreadPortsHaveNoEffect :
    ¬ readsPortA (.add .r0 .r1) ∧ ¬ readsPortB (.add .r0 .r1) ∧ ¬ readsPortS (.add .r0 .r1)
      ∧ ¬ readsPortB (.shl .port) ∧ (portsFor 0).a = ready.ports.a ∧ (portsFor 0).s = ready.ports.s
      ∧ (portsFor 0).b ≠ ready.ports.b := by
  refine ⟨?_, ?_, ?_, ?_, by decide, by decide, by decide⟩ <;> simp [readsPortA, readsPortB, readsPortS, Instr.asel, Instr.bsel]

theorem witness_NoCommandReadsFlagOrStatus :
    writesCf (.addc .r0 .r1) = true ∧ codeAfter (presenting 0x0251) = some .ok := by decide

/-- An amount below N, at 0, at N and at the largest S. -/
theorem witness_ShiftLaws :
    operandA ready .r0 = some 5 ∧ ready.ports.s.toNat < ready.width ∧ readyS0.ports.s = 0
      ∧ readySMax.width ≤ readySMax.ports.s.toNat
      ∧ State.width { ready with ports := ⟨0, 7, 2, 256⟩ } ≤ (256#64).toNat := by decide

theorem witness_MultiplicationLaws : operandA ready .r0 = some 5 ∧ operandB ready .r1 = some 3 := by decide

theorem witness_DivisionLaw : operandA ready .r0 = some 5 ∧ ready.ports.b ≠ 0 := by decide

/-- MIN / -1, MIN / 1 and MIN / MIN at N = 128. -/
theorem witness_SignedDivisionProcedure :
    ((-1 : BitVec 128) ≠ 0 ∧ BitVec.intMin 128 = BitVec.intMin 128)
      ∧ ¬ (BitVec.intMin 128 = BitVec.intMin 128 ∧ (1 : BitVec 128) = -1) ∧ BitVec.intMin 128 ≠ 0 := by decide

theorem witness_LimbBitwiseIsBitwise : 2 ^ 256 - 1 < 2 ^ Config.width 1 ∧ 0 < 2 ^ Config.width 1 := by decide
theorem witness_LimbComparisonIsComparison : 2 ^ 128 - 1 < 2 ^ Config.width 1 ∧ 2 ^ 128 < 2 ^ Config.width 1 := by decide

theorem witness_CarryChainIsExactAddition :
    2 ^ 256 - 1 < 2 ^ Config.width 1 ∧ (carryChain 1 (2 ^ 256 - 1) (2 ^ 256 - 1)).2 = 1 := by decide +kernel

theorem witness_LimbShiftIsExactAndNeverFullWidth : xV4 < 2 ^ Config.width 1 := by decide
theorem witness_WordArrayShiftIsExact : xV4 < 2 ^ (64 * 4) := by decide

theorem witness_WideShiftByLowestWordIsByValue :
    Config.width 1 < 2 ^ 64 ∧ xV4 < 2 ^ Config.width 1 ∧ 2 ^ 64 + 1 < 2 ^ Config.width 1 := by decide

theorem witness_LimbFullMultiplyIsExact : 2 ^ 256 - 1 < 2 ^ (64 * 2 ^ 2) := by decide
theorem witness_LimbTruncatedMultiplyIsExact : 2 ^ 256 - 1 < 2 ^ Config.width 1 := by decide
theorem witness_SchoolbookFullMultiplyIsExact : 2 ^ 256 - 1 < 2 ^ (64 * 4) := by decide
theorem witness_SchoolbookTruncatedMultiplyIsExact : 2 ^ 256 - 1 < 2 ^ (64 * 4) := by decide
theorem witness_ShortDivisionIsExact : 2 ^ 256 - 1 < 2 ^ (64 * 4) ∧ 0 < 2 ^ 64 - 1 ∧ 2 ^ 64 - 1 < 2 ^ 64 := by decide

/-- T3's window at j = 0: the trial quotient starts at b + 1. -/
theorem witness_TrialQuotientIsTrueOrOneMore :
    2 ≤ 2 ∧ [0xffffffffffffffff, 0x8000000000000000].length = 2
      ∧ 0 + 2 < [0, 0xfffffffffffffffe, 0x8000000000000000, 0].length
      ∧ (∀ d ∈ [0, 0xfffffffffffffffe, 0x8000000000000000, 0], d < 2 ^ 64)
      ∧ (∀ d ∈ [0xffffffffffffffff, 0x8000000000000000], d < 2 ^ 64)
      ∧ 2 ^ 63 ≤ entry [0xffffffffffffffff, 0x8000000000000000] (2 - 1)
      ∧ fromWords (([0, 0xfffffffffffffffe, 0x8000000000000000, 0].drop 0).take (2 + 1))
          < fromWords [0xffffffffffffffff, 0x8000000000000000] * 2 ^ 64 := by decide +kernel

theorem witness_AlgorithmDDivides :
    0x8000000000000000fffffffffffffffe0000000000000000 < 2 ^ (64 * 4)
      ∧ 0x8000000000000000ffffffffffffffff ≤ 0x8000000000000000fffffffffffffffe0000000000000000
      ∧ 2 ≤ nzWords 4 0x8000000000000000ffffffffffffffff := by decide +kernel

/-- Each path applies somewhere. -/
theorem witness_DivisionPathsAgree :
    2 ^ 255 < 2 ^ (64 * 4) ∧ DivPath.applies 4 (2 ^ 255) 10 .short = true ∧ DivPath.applies 4 5 7 .below = true
      ∧ DivPath.applies 4 (2 ^ 255) (2 ^ 100) .powerOfTwo = true
      ∧ DivPath.applies 4 (2 ^ 255) 0x8000000000000000ffffffffffffffff .general = true := by decide +kernel

end Sys2Proof.Tests
end

section
/-! SUPPORT. Every command as one answer. A command's operands and amount give an `Answer`, the values it writes and the
code it reports, and `State.finish` carries that answer out in the state. `exec_eq_finish` and `runCommand_eq_finish` tie
the two to the model. What a command leaves unchanged, what it does not read and which bits it sets are then facts about
answers and about `finish`, with no more case analysis over the meanings. -/

namespace Sys2Proof.Machine

open Sys2Proof.Claims

/-- What a command answers: the values it writes, none for a register it leaves unchanged (R24, R27), and the code it
reports (R30). -/
structure Answer (n : Nat) where
  r0 : Option (BitVec n) := none
  r1 : Option (BitVec n) := none
  cf : Option Bool := none
  code : Code := .ok

/-- A command that faults writes no register (R172). -/
def Answer.fault {n : Nat} (f : BlockFault) : Answer n := { code := f.code }

/-- DIVZ for a zero divisor, else quotient and remainder (R158). -/
def Answer.division {n : Nat} (v : BitVec n) (d : DivResult n) : Answer n :=
  if v = 0 then .fault .divz else { r0 := some d.quot, r1 := some d.rem }

/-- UNDEF_OPERAND where an operand is missing, else the answer computed from both (R171). -/
def Answer.ofOperands {n : Nat} (f : BitVec n → BitVec n → Answer n) :
    Option (BitVec n) → Option (BitVec n) → Answer n
  | some x, some y => f x y
  | _, _ => .fault .undefOperand

/-- The end of a command (R30): the values are written, the code is reported, and its sticky bit is set. -/
def State.finish (s : State) (w : Answer s.width) : State :=
  { s with
    r0 := w.r0.or s.r0
    r1 := w.r1.or s.r1
    cf := w.cf.or s.cf
    code := w.code
    dzs := s.dzs || w.code == .divz
    ils := s.ils || w.code == .illegal
    uos := s.uos || w.code == .undefOperand }

/-! ## The fields after a command -/

section
variable (s : State) (w : Answer s.width)

@[simp] theorem State.finish_r0 : (s.finish w).r0 = w.r0.or s.r0 := rfl
@[simp] theorem State.finish_r1 : (s.finish w).r1 = w.r1.or s.r1 := rfl
@[simp] theorem State.finish_cf : (s.finish w).cf = w.cf.or s.cf := rfl
@[simp] theorem State.finish_code : (s.finish w).code = w.code := rfl
@[simp] theorem State.finish_dzs : (s.finish w).dzs = (s.dzs || w.code == .divz) := rfl
@[simp] theorem State.finish_ils : (s.finish w).ils = (s.ils || w.code == .illegal) := rfl
@[simp] theorem State.finish_uos : (s.finish w).uos = (s.uos || w.code == .undefOperand) := rfl

/-- A register is valid after a command where the command wrote it or it was valid before. -/
theorem State.finish_r0_isSome : (s.finish w).r0.isSome = (w.r0.isSome || s.r0.isSome) := Option.isSome_or
theorem State.finish_r1_isSome : (s.finish w).r1.isSome = (w.r1.isSome || s.r1.isSome) := Option.isSome_or
theorem State.finish_cf_isSome : (s.finish w).cf.isSome = (w.cf.isSome || s.cf.isSome) := Option.isSome_or

end

/-! ## The effects of the commands as answers -/

section
variable (s : State)

theorem raise_eq_finish (f : BlockFault) : s.raise f = s.finish (.fault f) := by
  cases f <;> rfl

/-- A completing command sets no sticky bit. -/
theorem finish_of_code_ok {w : Answer s.width} (h : w.code = .ok) :
    s.finish w = { s with r0 := w.r0.or s.r0, r1 := w.r1.or s.r1, cf := w.cf.or s.cf, code := .ok } := by
  simp [State.finish, h]

theorem writeR0_complete_eq_finish (v : BitVec s.width) : (s.writeR0 v).complete = s.finish { r0 := some v } :=
  (finish_of_code_ok s (w := { r0 := some v }) rfl).symm

theorem writeCf_complete_eq_finish (c : Bool) : (s.writeCf c).complete = s.finish { cf := some c } :=
  (finish_of_code_ok s (w := { cf := some c }) rfl).symm

theorem writeR0_writeCf_complete_eq_finish (v : BitVec s.width) (c : Bool) :
    ((s.writeR0 v).writeCf c).complete = s.finish { r0 := some v, cf := some c } :=
  (finish_of_code_ok s (w := { r0 := some v, cf := some c }) rfl).symm

theorem writePair_complete_eq_finish (v0 v1 : BitVec s.width) :
    (s.writePair v0 v1).complete = s.finish { r0 := some v0, r1 := some v1 } :=
  (finish_of_code_ok s (w := { r0 := some v0, r1 := some v1 }) rfl).symm

theorem divide_eq_finish (v : BitVec s.width) (d : DivResult s.width) :
    divide s v d = s.finish (.division v d) := by
  by_cases hv : v = 0
  · subst hv
    rw [divide_zero, raise_eq_finish]
    exact congrArg s.finish (if_pos rfl).symm
  · rw [divide_nonzero s d hv, writePair_complete_eq_finish]
    exact congrArg s.finish (if_neg hv).symm

end

theorem withAB_eq_finish {s : State} {a : ASel} {b : BSel} {effect : BitVec s.width → BitVec s.width → State}
    {f : BitVec s.width → BitVec s.width → Answer s.width} (h : ∀ x y, effect x y = s.finish (f x y)) :
    withAB s a b effect = .next (s.finish (.ofOperands f (s.opA a) (s.opB b))) := by
  rcases withAB_outcome s a b effect with ⟨hnone, heq⟩ | ⟨x, y, hA, hB, heq⟩
  · rw [heq, raise_eq_finish]
    rcases hnone with hA | hB
    · rw [hA]; rfl
    · rw [hB]; cases s.opA a <;> rfl
  · rw [heq, hA, hB, h]; rfl

theorem withA_eq_finish {s : State} {a : ASel} {effect : BitVec s.width → State}
    {f : BitVec s.width → BitVec s.width → Answer s.width} (h : ∀ x, effect x = s.finish (f x 0)) :
    withA s a effect = .next (s.finish (.ofOperands f (s.opA a) (some 0))) := by
  rcases withA_outcome s a effect with ⟨hA, heq⟩ | ⟨x, hA, heq⟩
  · rw [heq, hA, raise_eq_finish]; rfl
  · rw [heq, hA, h]; rfl

/-! ## The answer of each command -/

/-- What a command answers on valid operands; `amount` is the S port of SHL and LSR. -/
def instrAnswer {n : Nat} (i : Instr) (amount : Nat) (x y : BitVec n) : Answer n :=
  match i with
  | .and _ _ => { r0 := some (x &&& y) }
  | .or _ _ => { r0 := some (x ||| y) }
  | .xor _ _ => { r0 := some (x ^^^ y) }
  | .not _ => { r0 := some (~~~x) }
  | .eq _ _ => { cf := some (eqFlag x y) }
  | .ne _ _ => { cf := some (neFlag x y) }
  | .lt _ _ => { cf := some (ltFlag x y) }
  | .le _ _ => { cf := some (leFlag x y) }
  | .gt _ _ => { cf := some (gtFlag x y) }
  | .ge _ _ => { cf := some (geFlag x y) }
  | .add _ _ => { r0 := some (sum x y) }
  | .addc _ _ => { r0 := some (sum x y), cf := some (carryOut x y) }
  | .sub _ _ => { r0 := some (difference x y) }
  | .neg _ => { r0 := some (negate x) }
  | .shl _ => { r0 := some (shiftLeft x amount) }
  | .lsr _ => { r0 := some (shiftRight x amount) }
  | .shlw _ _ => { r0 := some (shiftLeft x y.toNat) }
  | .lsrw _ _ => { r0 := some (shiftRight x y.toNat) }
  | .mul _ _ => { r0 := some (productLow x y) }
  | .mulf _ _ => { r0 := some (productLow x y), r1 := some (productHigh x y) }
  | .udivrem _ _ => .division y (udivrem x y)
  | .sdivrem _ _ => .division y (sdivrem x y)

/-- The second operand of a command, 0 for a command that does not read B. -/
def State.secondOperand (s : State) (i : Instr) : Option (BitVec s.width) :=
  match i.bsel with
  | some b => s.opB b
  | none => some 0

/-- The shift amount that SHL and LSR read from the S port, 0 for every other command. -/
def State.shiftAmount (s : State) (i : Instr) : Nat :=
  match i with
  | .shl _ | .lsr _ => s.ports.s.toNat
  | _ => 0

/-- What a decoded command answers in a state. -/
def State.answer (s : State) (i : Instr) : Answer s.width :=
  .ofOperands (instrAnswer i (s.shiftAmount i)) (s.opA i.asel) (s.secondOperand i)

/-- What the command on the sampled ports answers: ILLEGAL where the word does not decode (R173). -/
def State.commandAnswer (s : State) : Answer s.width :=
  match decode s.ports.cmd with
  | .error _ => .fault .illegal
  | .ok i => s.answer i

theorem exec_eq_finish (i : Instr) (s : State) : exec i s = .next (s.finish (s.answer i)) := by
  cases i with
  | not a | neg a | shl a | lsr a => exact withA_eq_finish fun _ => writeR0_complete_eq_finish s _
  | eq a b | ne a b | lt a b | le a b | gt a b | ge a b =>
    exact withAB_eq_finish fun _ _ => writeCf_complete_eq_finish s _
  | addc a b => exact withAB_eq_finish fun _ _ => writeR0_writeCf_complete_eq_finish s _ _
  | mulf a b => exact withAB_eq_finish fun _ _ => writePair_complete_eq_finish s _ _
  | udivrem a b | sdivrem a b => exact withAB_eq_finish fun _ _ => divide_eq_finish s _ _
  | and a b | or a b | xor a b | add a b | sub a b | shlw a b | lsrw a b | mul a b =>
    exact withAB_eq_finish fun _ _ => writeR0_complete_eq_finish s _

theorem runCommand_eq_finish (s : State) : runCommand s = .next (s.finish s.commandAnswer) := by
  cases h : decode s.ports.cmd with
  | error why => simp only [runCommand_error h, State.commandAnswer, h, raise_eq_finish]
  | ok i => simp only [runCommand_ok h, State.commandAnswer, h, exec_eq_finish]

/-! ## Which registers an answer writes -/

/-- The answer keeps R24's table: on completion it has a value for exactly the registers of the command's row, on a
fault for none. -/
structure Answer.FollowsRow {n : Nat} (w : Answer n) (i : Instr) : Prop where
  of_ok : w.code = .ok → w.r0.isSome = writesR0 i ∧ w.r1.isSome = writesR1 i ∧ w.cf.isSome = writesCf i
  of_fault : w.code ≠ .ok → w.r0 = none ∧ w.r1 = none ∧ w.cf = none

theorem BlockFault.code_ne_ok (f : BlockFault) : f.code ≠ .ok := by cases f <;> decide

theorem fault_followsRow {n : Nat} (f : BlockFault) (i : Instr) : (Answer.fault f : Answer n).FollowsRow i where
  of_ok h := absurd h f.code_ne_ok
  of_fault _ := ⟨rfl, rfl, rfl⟩

/-- An answer that completes follows the row when its values are those of the row. -/
theorem followsRow_of_ok {n : Nat} {w : Answer n} {i : Instr} (hcode : w.code = .ok)
    (hrow : w.r0.isSome = writesR0 i ∧ w.r1.isSome = writesR1 i ∧ w.cf.isSome = writesCf i) : w.FollowsRow i where
  of_ok _ := hrow
  of_fault h := absurd hcode h

theorem division_followsRow {n : Nat} (v : BitVec n) (d : DivResult n) {i : Instr}
    (hi : writesR0 i = true ∧ writesR1 i = true ∧ writesCf i = false) : (Answer.division v d).FollowsRow i := by
  obtain ⟨h0, h1, hc⟩ := hi
  unfold Answer.division
  split
  · exact fault_followsRow .divz i
  · exact followsRow_of_ok rfl ⟨h0.symm, h1.symm, hc.symm⟩

theorem instrAnswer_followsRow {n : Nat} (i : Instr) (amount : Nat) (x y : BitVec n) :
    (instrAnswer i amount x y).FollowsRow i := by
  cases i with
  | udivrem a b | sdivrem a b => exact division_followsRow y _ ⟨rfl, rfl, rfl⟩
  | _ => exact followsRow_of_ok rfl ⟨rfl, rfl, rfl⟩

theorem ofOperands_followsRow {n : Nat} {f : BitVec n → BitVec n → Answer n} {i : Instr}
    (hf : ∀ x y, (f x y).FollowsRow i) (a b : Option (BitVec n)) : (Answer.ofOperands f a b).FollowsRow i := by
  cases a with
  | none => exact fault_followsRow .undefOperand i
  | some x =>
    cases b with
    | none => exact fault_followsRow .undefOperand i
    | some y => exact hf x y

theorem answer_followsRow (s : State) (i : Instr) : (s.answer i).FollowsRow i :=
  ofOperands_followsRow (instrAnswer_followsRow i _) _ _

/-- Every row of R24 that writes R1 writes R0 too. -/
theorem writesR0_of_writesR1 {i : Instr} (h : writesR1 i = true) : writesR0 i = true := by
  cases i with
  | mulf a b | udivrem a b | sdivrem a b => rfl
  | _ => exact absurd h Bool.false_ne_true

theorem Answer.FollowsRow.r0_of_r1 {n : Nat} {w : Answer n} {i : Instr} (hw : w.FollowsRow i)
    (h1 : w.r1.isSome = true) : w.r0.isSome = true := by
  by_cases hcode : w.code = .ok
  · obtain ⟨hr0, hr1, -⟩ := hw.of_ok hcode
    exact hr0.trans (writesR0_of_writesR1 (hr1.symm.trans h1))
  · obtain ⟨-, hr1, -⟩ := hw.of_fault hcode
    simp [hr1] at h1

/-- Whatever word is presented, its command writes R1 only together with R0. -/
theorem commandAnswer_r0_of_r1 (s : State) (h1 : s.commandAnswer.r1.isSome = true) :
    s.commandAnswer.r0.isSome = true := by
  unfold State.commandAnswer at h1 ⊢
  split at h1
  · exact absurd h1 Bool.false_ne_true
  · exact (answer_followsRow s _).r0_of_r1 h1

/-! ## One step for each kind of interaction -/

section
variable {s : State} {rest : List (HostAction s.width)}

theorem step_of_idle (h : s.pending = []) : step s = .next s := by
  simp only [step, h, idle]

theorem step_command_eq_finish {p : Ports s.width} (h : s.pending = .command p :: rest) :
    step s = .next (State.finish { s with ports := p, pending := rest }
      (State.commandAnswer { s with ports := p, pending := rest })) :=
  (step_command h).trans (runCommand_eq_finish _)

theorem step_reset (h : s.pending = .reset :: rest) :
    step s = .next (State.resetBlock { s with pending := rest }) :=
  step_of_pending h

theorem step_resetDuring {p : Ports s.width} (h : s.pending = .resetDuring p :: rest) :
    step s = .next (State.resetBlock { s with ports := p, pending := rest }) :=
  step_of_pending h

theorem step_read (h : s.pending = .read :: rest) : step s = .next { s with pending := rest } :=
  step_of_pending h

end

end Sys2Proof.Machine
end

section
/-! The status register and the valid bits (spec/10_state.md R24, R27 to R30): the rows of R24, the status invariant,
valid bits and sticky bits over steps and runs. -/

namespace Sys2Proof.Machine

open Sys2Proof.Claims

/-! ## The status invariant -/

theorem State.consistent_iff (s : State) :
    s.consistent = true ↔ s.codeSticky = true ∧ (s.r1.isSome = true → s.r0.isSome = true) := by
  cases h : s.r1.isSome <;> simp [State.consistent, State.validOrdered, State.r0v, State.r1v, h]

/-- R30's update sets the sticky bit of the code it writes. -/
theorem finish_codeSticky (s : State) (w : Answer s.width) : (s.finish w).codeSticky = true := by
  cases h : w.code <;> simp [State.codeSticky, h]

theorem finish_consistent {s : State} {w : Answer s.width} (hs : s.consistent = true)
    (hw : w.r1.isSome = true → w.r0.isSome = true) : (s.finish w).consistent = true := by
  obtain ⟨-, hvalid⟩ := s.consistent_iff.mp hs
  refine (State.consistent_iff _).mpr ⟨finish_codeSticky s w, fun h1 => ?_⟩
  rw [State.finish_r1_isSome, Bool.or_eq_true] at h1
  rw [State.finish_r0_isSome, Bool.or_eq_true]
  exact h1.imp hw hvalid

theorem resetBlock_consistent (s : State) : s.resetBlock.consistent = true := rfl

/-- Settles O16: a command sets the sticky bit of the code it writes and writes R1 only with R0, a reset clears both
sides, a read and waiting change neither. -/
theorem stepKeepsTheStatusConsistent : Obligations.StepKeepsTheStatusConsistent := by
  intro s t hs hstep
  cases hp : s.pending with
  | nil =>
    rw [step_of_idle hp] at hstep
    cases hstep
    exact hs
  | cons act rest =>
    cases act with
    | command p =>
      rw [step_command_eq_finish hp] at hstep
      cases hstep
      exact finish_consistent hs (commandAnswer_r0_of_r1 _)
    | reset =>
      rw [step_reset hp] at hstep
      cases hstep
      exact resetBlock_consistent _
    | resetDuring p =>
      rw [step_resetDuring hp] at hstep
      cases hstep
      exact resetBlock_consistent _
    | read =>
      rw [step_read hp] at hstep
      cases hstep
      exact hs

theorem resetAt_consistent (e : Nat) : (State.resetAt e).consistent = true := rfl

/-- Settles O17: with every valid bit 0 and CODE 0 both halves of the invariant hold. -/
theorem resetIsConsistent : Obligations.ResetIsConsistent :=
  ⟨resetAt_consistent Config.buildExp, resetAt_consistent⟩

/-! ## The rows of R24 -/

/-- A register after a command, by its column of R24: valid where it is written, else as before. -/
theorem or_of_isSome_eq {α : Type} {v old : Option α} {written : Bool} (h : v.isSome = written) :
    if written = true then (v.or old).isSome = true else v.or old = old := by
  cases v with
  | none => subst h; rfl
  | some x => subst h; rfl

/-- Settles O13: the answer of a command follows its row. -/
theorem commandWritesExactlyItsRow : Obligations.CommandWritesExactlyItsRow := by
  intro i s
  have hrow := answer_followsRow s i
  refine ⟨_, _, _, _, _, _, _, exec_eq_finish i s, fun hok => ?_, fun hfault => ?_⟩
  · obtain ⟨h0, h1, hc⟩ := hrow.of_ok hok
    refine ⟨?_, ?_, ?_, or_of_isSome_eq h0, or_of_isSome_eq h1, or_of_isSome_eq hc⟩ <;> simp [hok]
  · obtain ⟨h0, h1, hc⟩ := hrow.of_fault hfault
    simp [h0, h1, hc]

/-! ## Valid bits -/

/-- No command clears a valid bit (R28). -/
theorem finish_valid_of_valid (s : State) (w : Answer s.width) :
    (s.r0.isSome = true → (s.finish w).r0.isSome = true) ∧ (s.r1.isSome = true → (s.finish w).r1.isSome = true)
      ∧ (s.cf.isSome = true → (s.finish w).cf.isSome = true) := by
  rw [State.finish_r0_isSome, State.finish_r1_isSome, State.finish_cf_isSome]
  simp +contextual

/-- Settles O18: a command keeps or writes each register, a read changes none. -/
theorem validBitsAreClearedOnlyByReset : Obligations.ValidBitsAreClearedOnlyByReset := by
  intro s t act rest hp hreset hduring hstep
  cases act with
  | command p =>
    rw [step_command_eq_finish hp] at hstep
    cases hstep
    exact finish_valid_of_valid { s with ports := p, pending := rest } _
  | reset => exact absurd rfl hreset
  | resetDuring p => exact absurd rfl (hduring p)
  | read =>
    rw [step_read hp] at hstep
    cases hstep
    exact ⟨id, id, id⟩

/-! ## Sticky bits over runs -/

/-- One of the first `k` steps from `s` reports the code `c`. -/
def ReportsWithin (k : Nat) (s : State) (c : Code) : Prop :=
  ∃ j u, 1 ≤ j ∧ j ≤ k ∧ Host.Core.run core j s = .next u ∧ u.code = c

theorem not_reportsWithin_zero (s : State) (c : Code) : ¬ ReportsWithin 0 s c := by
  rintro ⟨j, u, hj, hj0, -⟩
  omega

theorem reportsWithin_succ {s u : State} (hstep : step s = .next u) (k : Nat) (c : Code) :
    ReportsWithin (k + 1) s c ↔ u.code = c ∨ ReportsWithin k u c := by
  constructor
  · rintro ⟨j, t, hj, hjk, hrun, hcode⟩
    obtain ⟨m, rfl⟩ : ∃ m, j = m + 1 := ⟨j - 1, by omega⟩
    rw [run_succ_of_next m hstep] at hrun
    cases m with
    | zero => cases hrun; exact .inl hcode
    | succ m => exact .inr ⟨m + 1, t, by omega, by omega, hrun, hcode⟩
  · rintro (hcode | ⟨j, t, hj, hjk, hrun, hcode⟩)
    · exact ⟨1, u, le_rfl, by omega, run_succ_of_next 0 hstep, hcode⟩
    · exact ⟨j + 1, t, by omega, by omega, (run_succ_of_next j hstep).trans hrun, hcode⟩

/-- Every command sets the bit where it reports the code `c`, and otherwise leaves it as it was. -/
def RecordsCode (bit : State → Bool) (c : Code) : Prop :=
  ∀ (s : State) (p : Ports s.width) (rest : List (HostAction s.width)) (w : Answer s.width),
    bit (State.finish { s with ports := p, pending := rest } w) = (bit s || w.code == c)

/-- A bit that records a code over each command records it over a run of commands. -/
theorem bit_after_commands_iff {bit : State → Bool} {c : Code} (hbit : RecordsCode bit c)
    (k : Nat) (s t : State) (hcmd : s.onlyCommands = true) (hk : k ≤ s.pending.length)
    (hrun : Host.Core.run core k s = .next t) :
    bit t = true ↔ bit s = true ∨ ReportsWithin k s c := by
  induction k generalizing s with
  | zero =>
    cases hrun
    simp [not_reportsWithin_zero]
  | succ k ih =>
    cases hp : s.pending with
    | nil => simp [hp] at hk
    | cons act rest =>
      cases act with
      | command p =>
        have hstep := step_command_eq_finish hp
        rw [run_succ_of_next k hstep] at hrun
        simp only [hp, List.length_cons] at hk
        rw [ih _ (by simpa [State.onlyCommands, hp, HostAction.isCommand, State.finish] using hcmd)
          (Nat.le_of_succ_le_succ hk) hrun, reportsWithin_succ hstep, hbit]
        simp [or_assoc]
      | reset | resetDuring p | read => simp [State.onlyCommands, hp, HostAction.isCommand] at hcmd

/-- Settles O15: R30's update records the code of each command in its sticky bit, by induction on the steps. -/
theorem stickyBitsRecordEveryFault : Obligations.StickyBitsRecordEveryFault := by
  intro k s t hcmd hk hrun
  exact ⟨bit_after_commands_iff (fun _ _ _ _ => rfl) k s t hcmd hk hrun,
    bit_after_commands_iff (fun _ _ _ _ => rfl) k s t hcmd hk hrun,
    bit_after_commands_iff (fun _ _ _ _ => rfl) k s t hcmd hk hrun⟩

/-! ## What a command does not read -/

section
variable {s : State} {p : Ports s.width} {i : Instr}

theorem opA_of_port_agree (h : readsPortA i → p.a = s.ports.a) :
    State.opA { s with ports := p } i.asel = s.opA i.asel := by
  cases hA : i.asel with
  | port => exact congrArg some (h hA)
  | r0 | r1 => rfl

theorem secondOperand_of_ports_agree (hb : readsPortB i → p.b = s.ports.b) (hs : readsPortS i → p.s = s.ports.s) :
    State.secondOperand { s with ports := p } i = s.secondOperand i := by
  unfold State.secondOperand
  cases hB : i.bsel with
  | none => rfl
  | some b =>
    cases b with
    | port => exact congrArg some (hb hB)
    | r0 | r1 => rfl
    | zextS => exact congrArg (fun v => some (v.setWidth s.width)) (hs (.inl hB))

theorem shiftAmount_of_port_agree (h : readsPortS i → p.s = s.ports.s) :
    State.shiftAmount { s with ports := p } i = s.shiftAmount i := by
  cases i with
  | shl a => exact congrArg BitVec.toNat (h (.inr (.inl ⟨a, rfl⟩)))
  | lsr a => exact congrArg BitVec.toNat (h (.inr (.inr ⟨a, rfl⟩)))
  | _ => rfl

/-- A command's answer depends on no port it does not read. -/
theorem answer_of_ports_agree (ha : readsPortA i → p.a = s.ports.a) (hb : readsPortB i → p.b = s.ports.b)
    (hs : readsPortS i → p.s = s.ports.s) : State.answer { s with ports := p } i = s.answer i := by
  unfold State.answer
  rw [opA_of_port_agree ha, secondOperand_of_ports_agree hb hs, shiftAmount_of_port_agree hs]

end

/-- Settles O24: both states give the command the same answer. -/
theorem unreadPortsHaveNoEffect : Obligations.UnreadPortsHaveNoEffect := by
  intro i s p ha hb hs
  refine ⟨_, _, _, _, _, _, _, exec_eq_finish i s, ?_⟩
  rw [exec_eq_finish, answer_of_ports_agree ha hb hs]
  rfl

/-- Settles O25: operands and amount, and so the answer, come from the ports, R0 and R1 alone. -/
theorem noCommandReadsFlagOrStatus : Obligations.NoCommandReadsFlagOrStatus := by
  intro i s cf code dzs ils uos
  refine ⟨_, _, exec_eq_finish i s, exec_eq_finish i _, rfl, rfl, rfl, fun hwrites hok => ?_⟩
  obtain ⟨-, -, hcf⟩ := (answer_followsRow s i).of_ok hok
  obtain ⟨c, hc⟩ := Option.isSome_iff_exists.mp (hcf.trans hwrites)
  have hanswer :
      State.answer { s with cf := cf, code := code, dzs := dzs, ils := ils, uos := uos } i = s.answer i := rfl
  rw [State.finish_cf, State.finish_cf, hanswer, hc]
  rfl

/-! ## The status byte -/

/-- Appending puts the left word's value above the right word's bits. -/
theorem toNat_append_eq_add {m n : Nat} (x : BitVec m) (y : BitVec n) :
    (x ++ y).toNat = x.toNat * 2 ^ n + y.toNat := by
  rw [BitVec.toNat_append, ← Nat.shiftLeft_add_eq_or_of_lt y.isLt, Nat.shiftLeft_eq]

/-- ST's value from its fields, CODE still as its bits (R29). -/
theorem State.st_toNat (s : State) :
    s.st.toNat = s.code.bits.toNat + 4 * s.dzs.toNat + 8 * s.ils.toNat + 16 * s.uos.toNat
      + 32 * s.r0.isSome.toNat + 64 * s.r1.isSome.toNat + 128 * s.cf.isSome.toNat := by
  simp only [State.st, State.r0v, State.r1v, State.cfv, toNat_append_eq_add, BitVec.toNat_ofBool]
  omega

/-- Settles O14: the byte is the sum of its fields, each at its place, and a code's bits are its number. -/
theorem statusByteLayout : Obligations.StatusByteLayout := by
  intro s
  rw [State.st_toNat]
  cases s.code <;> rfl

end Sys2Proof.Machine
end

section
/-! The host's side (spec/20_memory.md R50, R51, R54): each step takes one interaction, a read has no effect, and the byte
image of a value. -/

namespace Sys2Proof.Machine

/-! ## One interaction a step -/

/-- Settles O22: a command ends in `State.finish`, the two resets in `State.resetBlock`, and a read and waiting change no
register; each leaves the tail of the list. -/
theorem everyStepCompletesAndTakesOneInteraction : Obligations.EveryStepCompletesAndTakesOneInteraction := by
  intro s
  cases hp : s.pending with
  | nil => exact ⟨_, _, _, _, _, _, _, _, by rw [step_of_idle hp, List.tail_nil, ← hp]⟩
  | cons act rest =>
    cases act with
    | command p => exact ⟨_, _, _, _, _, _, _, _, step_command_eq_finish hp⟩
    | reset => exact ⟨_, _, _, _, _, _, _, _, step_reset hp⟩
    | resetDuring p => exact ⟨_, _, _, _, _, _, _, _, step_resetDuring hp⟩
    | read => exact ⟨_, _, _, _, _, _, _, _, step_read hp⟩

/-! ## What a read shows -/

section
variable (s : State)

/-- ST[5], ST[6] and ST[7] mirror the valid bits (R28, R29). -/
theorem State.st_getLsbD_five : s.st.getLsbD 5 = s.r0.isSome := by
  simp only [State.st, State.r0v, BitVec.getLsbD_append]
  simp
theorem State.st_getLsbD_six : s.st.getLsbD 6 = s.r1.isSome := by
  simp only [State.st, State.r1v, BitVec.getLsbD_append]
  simp
theorem State.st_getLsbD_seven : s.st.getLsbD 7 = s.cf.isSome := by
  simp only [State.st, State.cfv, BitVec.getLsbD_append]
  simp

@[simp] theorem State.view_r0 : s.view.r0 = s.r0.map BitVec.toNat := rfl
@[simp] theorem State.view_r1 : s.view.r1 = s.r1.map BitVec.toNat := rfl
@[simp] theorem State.view_cf : s.view.cf = s.cf := rfl
@[simp] theorem State.view_st : s.view.st = s.st := rfl

end

/-- Settles O21: the mirror bits of ST are the registers' valid bits, and the view maps each register to its value. -/
theorem hostReadHasNoEffect : Obligations.HostReadHasNoEffect := by
  refine ⟨fun s rest hread => step_read hread, fun s => ⟨?_, ?_, ?_, ?_, ?_, s.view_cf, s.view_st⟩⟩
  · rw [State.st_getLsbD_five]
    simp
  · rw [State.st_getLsbD_six]
    simp
  · rw [State.st_getLsbD_seven]
    simp
  · intro x hx
    simp [hx]
  · intro x hx
    simp [hx]

/-! ## The byte image -/

theorem storeImage_length {n : Nat} (x : BitVec n) : (storeImage x).length = n / 8 := by
  simp [storeImage]

theorem storeImage_getD {n j : Nat} (x : BitVec n) (hj : j < n / 8) :
    (storeImage x).getD j 0 = x.extractLsb' (n - 8 - 8 * j) 8 := by
  simp [storeImage, List.getD, hj]

theorem byteAt_toNat {n : Nat} (x : BitVec n) (lo : Nat) : (x.extractLsb' lo 8).toNat = x.toNat / 2 ^ lo % 256 := by
  rw [BitVec.extractLsb'_toNat, Nat.shiftRight_eq_div_pow]

/-- The bytes from bit `lo + 8` up, then the byte at `lo`, are the bits from `lo` up. -/
theorem div_two_pow_mul_add_byte (v lo : Nat) : v / 2 ^ (lo + 8) * 256 + v / 2 ^ lo % 256 = v / 2 ^ lo := by
  rw [Nat.pow_add, ← Nat.div_div_eq_div_mul]
  exact Nat.div_add_mod' (v / 2 ^ lo) 256

/-- Loading the first `m` bytes gives the value's top `8 * m` bits: each further byte moves them up and fills in. -/
theorem foldl_leading_bytes {n : Nat} (x : BitVec n) (m : Nat) (hm : 8 * m ≤ n) :
    ((List.range m).map fun j => x.extractLsb' (n - 8 - 8 * j) 8).foldl (fun acc byte => acc * 256 + byte.toNat) 0
      = x.toNat / 2 ^ (n - 8 * m) := by
  induction m with
  | zero => exact (Nat.div_eq_of_lt x.isLt).symm
  | succ m ih =>
    have hhigh : n - 8 * m = (n - 8 - 8 * m) + 8 := by omega
    have hlow : n - 8 * (m + 1) = n - 8 - 8 * m := by omega
    rw [List.range_succ, List.map_append, List.foldl_append, ih (by omega), hhigh, hlow]
    exact (congrArg _ (byteAt_toNat x _)).trans (div_two_pow_mul_add_byte x.toNat _)

theorem loadImage_storeImage {n : Nat} (x : BitVec n) (hn : 8 ∣ n) : loadImage n (storeImage x) = x := by
  have hbytes : 8 * (n / 8) = n := Nat.mul_div_cancel' hn
  rw [loadImage, storeImage, foldl_leading_bytes x (n / 8) hbytes.le, hbytes, Nat.sub_self, Nat.pow_zero, Nat.div_one,
    BitVec.ofNat_toNat, BitVec.setWidth_eq]

/-- Every width is a whole number of bytes (R4). -/
theorem eight_dvd_width (e : Nat) : 8 ∣ Config.width e :=
  pow_dvd_pow 2 (by omega : 3 ≤ 7 + e)

/-- Settles O58: the first `N / 8` bytes, which are all of them, load to all `N` bits. -/
theorem hostImageRoundTrips : Obligations.HostImageRoundTrips := by
  intro e x
  refine ⟨loadImage_storeImage x (eight_dvd_width e), storeImage_length x, fun j hj => ?_⟩
  rw [storeImage_getD x hj, byteAt_toNat]

end Sys2Proof.Machine
end

section
/-! Command words (spec/30_encoding.md R60 to R72): the decoder's four outcomes, said once, and from them that decoder and
encoder are inverse, which words are illegal, and how many are legal. -/

namespace Sys2Proof

open Sys2Proof.Machine Sys2Proof.Claims

/-! ## The fields as numbers -/

section
variable (w : CommandWord)

theorem rsvField_toNat : (rsvField w).toNat = rsvNumber w := by
  have hw := w.isLt
  simp only [rsvField, rsvNumber, BitVec.extractLsb'_toNat, Nat.shiftRight_eq_div_pow]
  omega

theorem bselField_toNat : (bselField w).toNat = bselNumber w := by
  simp only [bselField, bselNumber, BitVec.extractLsb'_toNat, Nat.shiftRight_eq_div_pow]

theorem aselField_toNat : (aselField w).toNat = aselNumber w := by
  simp only [aselField, aselNumber, BitVec.extractLsb'_toNat, Nat.shiftRight_eq_div_pow]

theorem opcField_toNat : (opcField w).toNat = opcNumber w := by
  simp only [opcField, opcNumber, BitVec.extractLsb'_toNat, Nat.shiftRight_eq_div_pow, Nat.pow_zero, Nat.div_one]

theorem rsvField_eq_zero_iff : rsvField w = 0 ↔ rsvNumber w = 0 := by
  rw [← rsvField_toNat]; exact BitVec.toNat_inj.symm

theorem bselField_eq_zero_iff : bselField w = 0 ↔ bselNumber w = 0 := by
  rw [← bselField_toNat]; exact BitVec.toNat_inj.symm

end

/-! ## The decoder's outcomes -/

/-- Step 1 of R66 after the selector of A: the command with its selectors, or R68's fault on BSEL. -/
def Form.select (f : Form) (a : ASel) (b : BitVec 2) : Except Illegal Instr :=
  match f with
  | .readsAB mk => .ok (mk a (decodeBSel b))
  | .readsA mk => if b = 0 then .ok (mk a) else .error .bsel

/-- Whether an opcode's command reads B (R67). -/
def Form.readsB : Form → Bool
  | .readsAB _ => true
  | .readsA _ => false

/-- The form makes commands of the opcode `n`, each with the selectors it was given. -/
def Form.Encodes (f : Form) (n : Nat) : Prop :=
  match f with
  | .readsAB mk => ∀ a b, (mk a b).opcode.toNat = n ∧ (mk a b).asel = a ∧ (mk a b).bsel = some b
  | .readsA mk => ∀ a, (mk a).opcode.toNat = n ∧ (mk a).asel = a ∧ (mk a).bsel = none

section
variable {w : CommandWord}

theorem decode_of_fields {f : Form} {a : ASel} (hrsv : rsvField w = 0) (hopc : opcodeForm (opcField w) = some f)
    (hasel : decodeASel (aselField w) = some a) : decode w = f.select a (bselField w) := by
  cases f <;> simp [decode, Form.select, hrsv, hopc, hasel]

/-- Everything the decoder can answer, its checks in the order of R66. -/
theorem decode_cases (w : CommandWord) :
    (rsvField w ≠ 0 ∧ decode w = .error .rsv)
      ∨ (opcodeForm (opcField w) = none ∧ decode w = .error .opc)
      ∨ (decodeASel (aselField w) = none ∧ decode w = .error .asel)
      ∨ ∃ f a, rsvField w = 0 ∧ opcodeForm (opcField w) = some f ∧ decodeASel (aselField w) = some a
          ∧ decode w = f.select a (bselField w) := by
  by_cases hrsv : rsvField w = 0
  case neg => exact .inl ⟨hrsv, if_pos hrsv⟩
  cases hopc : opcodeForm (opcField w) with
  | none => exact .inr (.inl ⟨rfl, by simp [decode, hrsv, hopc]⟩)
  | some f =>
    cases hasel : decodeASel (aselField w) with
    | none => exact .inr (.inr (.inl ⟨rfl, by simp [decode, hrsv, hopc, hasel]⟩))
    | some a => exact .inr (.inr (.inr ⟨f, a, hrsv, rfl, rfl, decode_of_fields hrsv hopc hasel⟩))

/-- A word decodes only where all three fields are assigned. -/
theorem fields_of_decode_ok {i : Instr} (h : decode w = .ok i) :
    ∃ f a, rsvField w = 0 ∧ opcodeForm (opcField w) = some f ∧ decodeASel (aselField w) = some a
      ∧ f.select a (bselField w) = .ok i := by
  rcases decode_cases w with ⟨-, he⟩ | ⟨-, he⟩ | ⟨-, he⟩ | ⟨f, a, hrsv, hopc, hasel, hsel⟩
  · cases he.symm.trans h
  · cases he.symm.trans h
  · cases he.symm.trans h
  · exact ⟨f, a, hrsv, hopc, hasel, hsel.symm.trans h⟩

end

/-! ## Decoder and encoder -/

/-- The opcode map and `Instr.opcode` are one table (R67). -/
theorem encodes_of_opcodeForm {o : BitVec 6} {f : Form} (h : opcodeForm o = some f) : f.Encodes o.toNat := by
  unfold opcodeForm at h
  split at h <;> cases h
  all_goals
    rename_i ho
    rw [ho]
    simp [Form.Encodes, Instr.opcode, Instr.asel, Instr.bsel]

theorem bits_of_decodeASel {v : BitVec 2} {a : ASel} (h : decodeASel v = some a) : a.bits = v := by
  revert v a; decide

theorem bits_decodeBSel (v : BitVec 2) : (decodeBSel v).bits = v := by
  revert v; decide

/-- A command of a form has the fields it was selected by. -/
theorem fields_of_select {f : Form} {n : Nat} {a : ASel} {b : BitVec 2} {i : Instr} (hf : f.Encodes n)
    (h : f.select a b = .ok i) : i.opcode.toNat = n ∧ i.asel = a ∧ (i.bsel.map BSel.bits).getD 0 = b := by
  cases f with
  | readsAB mk =>
    cases h
    obtain ⟨hopc, hasel, hbsel⟩ := hf a (decodeBSel b)
    exact ⟨hopc, hasel, by rw [hbsel]; exact bits_decodeBSel b⟩
  | readsA mk =>
    obtain ⟨hopc, hasel, hbsel⟩ := hf a
    simp only [Form.select] at h
    split at h
    next hb => cases h; exact ⟨hopc, hasel, by rw [hbsel, hb]; rfl⟩
    next => cases h

/-- Every command is made by the form of its opcode from its own selectors. -/
theorem select_of_instr (i : Instr) :
    ∃ f, opcodeForm i.opcode = some f ∧ f.select i.asel ((i.bsel.map BSel.bits).getD 0) = .ok i := by
  cases i with
  | not a | neg a | shl a | lsr a => exact ⟨_, rfl, rfl⟩
  | _ a b => exact ⟨_, rfl, by simp [Form.select, Instr.asel, Instr.bsel]⟩

/-- Settles O1: each field of the encoded word is the field that was packed, and the form of the opcode makes the command
from those selectors. -/
theorem decodeOfEncode : Obligations.DecodeOfEncode := by
  intro i
  obtain ⟨f, hform, hselect⟩ := select_of_instr i
  have hrsv : rsvField (encode i) = 0 := rsvField_packFields _ _ _ _
  have hopc : opcodeForm (opcField (encode i)) = some f := (congrArg opcodeForm (opcField_packFields _ _ _ _)).trans hform
  have hasel : decodeASel (aselField (encode i)) = some i.asel :=
    (congrArg decodeASel (aselField_packFields _ _ _ _)).trans (decodeASel_bits _)
  have hbsel : bselField (encode i) = (i.bsel.map BSel.bits).getD 0 := bselField_packFields _ _ _ _
  rw [decode_of_fields hrsv hopc hasel, hbsel, hselect]

/-- Settles O2: the command has the word's OPC, ASEL and BSEL, the word's RSV is 0, and a word is its four fields. -/
theorem encodeOfDecode : Obligations.EncodeOfDecode := by
  intro w i h
  obtain ⟨f, a, hrsv, hform, hasel, hselect⟩ := fields_of_decode_ok h
  obtain ⟨hopc, ha, hb⟩ := fields_of_select (encodes_of_opcodeForm hform) hselect
  calc encode i = packFields 0 (bselField w) a.bits (opcField w) := by
        rw [encode, hb, ha, BitVec.eq_of_toNat_eq hopc]
    _ = w := by rw [bits_of_decodeASel hasel, ← hrsv, packFields_fields]

theorem decode_eq_ok_iff {w : CommandWord} {i : Instr} : decode w = .ok i ↔ encode i = w :=
  ⟨encodeOfDecode w i, fun h => h ▸ decodeOfEncode i⟩

theorem encode_injective : Function.Injective encode := fun _ j h =>
  Except.ok.inj ((decode_eq_ok_iff.mpr h).symm.trans (decodeOfEncode j))

/-! ## Illegal words (R69) -/

theorem opcodeForm_eq_none_iff (o : BitVec 6) : opcodeForm o = none ↔ o.toNat ∈ reservedOpcodes := by
  rw [← Option.isNone_iff_eq_none]
  revert o; decide

theorem decodeASel_eq_none_iff (v : BitVec 2) : decodeASel v = none ↔ v.toNat = 3 := by
  revert v; decide

/-- The opcodes of the commands that do not read B are R68's four. -/
theorem readsB_of_opcodeForm {o : BitVec 6} {f : Form} (h : opcodeForm o = some f) :
    f.readsB = false ↔ o.toNat ∈ [0x04, 0x13, 0x18, 0x19] := by
  have hall : ∀ o : BitVec 6, (opcodeForm o).isSome = true →
      ((opcodeForm o).map Form.readsB = some false ↔ o.toNat ∈ [0x04, 0x13, 0x18, 0x19]) := by decide
  simpa [h] using hall o

theorem select_eq_error_iff (f : Form) (a : ASel) (b : BitVec 2) :
    (∃ why, f.select a b = .error why) ↔ f.readsB = false ∧ b ≠ 0 := by
  cases f with
  | readsAB mk => simp [Form.select, Form.readsB]
  | readsA mk => rcases eq_or_ne b 0#2 with rfl | hb <;> simp [Form.select, Form.readsB, *]

theorem decode_eq_error_iff (w : CommandWord) : (∃ why, decode w = .error why) ↔ illegalWord w := by
  simp only [illegalWord, ← opcField_toNat, ← aselField_toNat, ← rsvField_eq_zero_iff, ← bselField_eq_zero_iff, ne_eq,
    ← opcodeForm_eq_none_iff, ← decodeASel_eq_none_iff]
  rcases decode_cases w with ⟨hrsv, he⟩ | ⟨hopc, he⟩ | ⟨hasel, he⟩ | ⟨f, a, hrsv, hopc, hasel, he⟩
  · exact iff_of_true ⟨_, he⟩ (.inl hrsv)
  · exact iff_of_true ⟨_, he⟩ (.inr (.inl hopc))
  · exact iff_of_true ⟨_, he⟩ (.inr (.inr (.inl hasel)))
  · rw [he, select_eq_error_iff, readsB_of_opcodeForm hopc]
    simp [hrsv, hopc, hasel]

theorem exists_decode_ok_iff (w : CommandWord) : (∃ i, decode w = .ok i) ↔ ¬ illegalWord w := by
  rw [← decode_eq_error_iff]
  cases decode w <;> simp

/-- The ranges of the legality check are R69's reserved opcodes. -/
theorem reservedOpcode_iff {n : Nat} (hn : n < 64) : reservedOpcode n = true ↔ n ∈ reservedOpcodes := by
  revert n; decide

theorem ignoresB_iff (n : Nat) : ignoresB n = true ↔ n ∈ [0x04, 0x13, 0x18, 0x19] := by
  simp [ignoresB, or_assoc]

theorem legalWord_iff (w : CommandWord) : legalWord w = true ↔ ¬ illegalWord w := by
  have hopc : opcNumber w < 64 := Nat.mod_lt _ (by decide)
  simp only [legalWord, illegalWord, ← reservedOpcode_iff hopc, ← ignoresB_iff]
  cases ignoresB (opcNumber w) <;> simp [and_assoc]

theorem encodedWordFields (i : Instr) : Laws.EncodedWordFields.Statement i := by
  cases i with
  | and a b => exact Laws.EncodedWordFields.and a b
  | or a b => exact Laws.EncodedWordFields.or a b
  | xor a b => exact Laws.EncodedWordFields.xor a b
  | not a => exact Laws.EncodedWordFields.not a
  | eq a b => exact Laws.EncodedWordFields.eq a b
  | ne a b => exact Laws.EncodedWordFields.ne a b
  | lt a b => exact Laws.EncodedWordFields.lt a b
  | le a b => exact Laws.EncodedWordFields.le a b
  | gt a b => exact Laws.EncodedWordFields.gt a b
  | ge a b => exact Laws.EncodedWordFields.ge a b
  | add a b => exact Laws.EncodedWordFields.add a b
  | addc a b => exact Laws.EncodedWordFields.addc a b
  | sub a b => exact Laws.EncodedWordFields.sub a b
  | neg a => exact Laws.EncodedWordFields.neg a
  | shl a => exact Laws.EncodedWordFields.shl a
  | lsr a => exact Laws.EncodedWordFields.lsr a
  | shlw a b => exact Laws.EncodedWordFields.shlw a b
  | lsrw a b => exact Laws.EncodedWordFields.lsrw a b
  | mul a b => exact Laws.EncodedWordFields.mul a b
  | mulf a b => exact Laws.EncodedWordFields.mulf a b
  | udivrem a b => exact Laws.EncodedWordFields.udivrem a b
  | sdivrem a b => exact Laws.EncodedWordFields.sdivrem a b

/-- R72: exactly one row of the table covers a command's word, and it is the row of its mnemonic. -/
theorem covers_encode (i : Instr) :
    ∃ r, opcodeTable.filter (fun row => row.covers (encode i)) = [r] ∧ r.mnemonic = i.mnemonic := by
  obtain ⟨-, -, hrow⟩ := encodedWordFields i
  exact List.map_eq_singleton_iff.mp hrow

/-- Settles O3: a word is illegal exactly where the decoder rejects it, and a word that decodes is its command's word, which
one row of the table covers. -/
theorem decoderIsTotalAndFollowsTheTable : Obligations.DecoderIsTotalAndFollowsTheTable := by
  intro w
  cases h : decode w with
  | error why =>
    have hillegal : illegalWord w := (decode_eq_error_iff w).mp ⟨why, h⟩
    have hcheck : legalWord w = false := by simpa using mt (legalWord_iff w).mp (not_not_intro hillegal)
    exact .inl ⟨why, rfl, hcheck, hillegal⟩
  | ok i =>
    have hlegal : ¬ illegalWord w := (exists_decode_ok_iff w).mp ⟨i, h⟩
    obtain ⟨r, hrow, hname⟩ := covers_encode i
    rw [encodeOfDecode w i h] at hrow
    exact .inr ⟨i, r, rfl, (legalWord_iff w).mpr hlegal, hlegal, hrow, hname⟩

/-! ## The number of legal words (R68) -/

/-- The three values of ASEL (R63). -/
def allASel : List ASel := [.port, .r0, .r1]

/-- ASEL and BSEL in every combination (R63, R64). -/
def allSelectors : List (ASel × BSel) := allASel ×ˢ [.port, .r0, .r1, .zextS]

theorem mem_allASel (a : ASel) : a ∈ allASel := by cases a <;> decide

theorem mem_allSelectors (a : ASel) (b : BSel) : (a, b) ∈ allSelectors := by
  cases a <;> cases b <;> decide

/-- All commands of a form. -/
def Form.commands : Form → List Instr
  | .readsAB mk => allSelectors.map fun p => mk p.1 p.2
  | .readsA mk => allASel.map mk

theorem Form.commands_length (f : Form) : f.commands.length = if f.readsB then 12 else 3 := by
  cases f <;> simp [Form.commands, Form.readsB, allSelectors, allASel]

theorem Form.commands_nodup {f : Form} {n : Nat} (hf : f.Encodes n) : f.commands.Nodup := by
  cases f with
  | readsAB mk =>
    refine List.Nodup.map (fun p q h => ?_) (by decide)
    obtain ⟨-, hpa, hpb⟩ := hf p.1 p.2
    obtain ⟨-, hqa, hqb⟩ := hf q.1 q.2
    have hasel : p.1 = q.1 := hpa.symm.trans ((congrArg Instr.asel h).trans hqa)
    have hbsel : some p.2 = some q.2 := hpb.symm.trans ((congrArg Instr.bsel h).trans hqb)
    exact Prod.ext hasel (Option.some.inj hbsel)
  | readsA mk =>
    refine List.Nodup.map (fun a c h => ?_) (by decide)
    obtain ⟨-, ha, -⟩ := hf a
    obtain ⟨-, hc, -⟩ := hf c
    exact ha.symm.trans ((congrArg Instr.asel h).trans hc)

theorem opcode_of_mem_commands {f : Form} {n : Nat} (hf : f.Encodes n) {i : Instr} (hi : i ∈ f.commands) :
    i.opcode.toNat = n := by
  cases f with
  | readsAB mk =>
    obtain ⟨p, -, rfl⟩ := List.mem_map.mp hi
    exact (hf p.1 p.2).1
  | readsA mk =>
    obtain ⟨a, -, rfl⟩ := List.mem_map.mp hi
    exact (hf a).1

theorem mem_commands_of_select {f : Form} {a : ASel} {b : BitVec 2} {i : Instr} (h : f.select a b = .ok i) :
    i ∈ f.commands := by
  cases f with
  | readsAB mk =>
    cases h
    exact List.mem_map_of_mem (f := fun p : ASel × BSel => mk p.1 p.2) (mem_allSelectors a (decodeBSel b))
  | readsA mk =>
    simp only [Form.select] at h
    split at h
    next => cases h; exact List.mem_map_of_mem (mem_allASel a)
    next => cases h

/-- The legal words of an opcode (R68), none where it is reserved. -/
def legalWordsOf (o : BitVec 6) : List CommandWord :=
  match opcodeForm o with
  | some f => f.commands.map encode
  | none => []

theorem opcNumber_encode (i : Instr) : opcNumber (encode i) = i.opcode.toNat := by
  rw [← opcField_toNat, encode, opcField_packFields]

theorem legalWordsOf_of_opcodeForm {o : BitVec 6} {f : Form} (h : opcodeForm o = some f) :
    legalWordsOf o = f.commands.map encode := by
  simp only [legalWordsOf, h]

theorem mem_legalWordsOf {o : BitVec 6} {w : CommandWord} :
    w ∈ legalWordsOf o ↔ (∃ i, decode w = .ok i) ∧ opcNumber w = o.toNat := by
  simp only [decode_eq_ok_iff]
  constructor
  · intro hw
    cases hform : opcodeForm o with
    | none => simp [legalWordsOf, hform] at hw
    | some f =>
      rw [legalWordsOf_of_opcodeForm hform] at hw
      obtain ⟨i, hi, rfl⟩ := List.mem_map.mp hw
      exact ⟨⟨i, rfl⟩, (opcNumber_encode i).trans (opcode_of_mem_commands (encodes_of_opcodeForm hform) hi)⟩
  · rintro ⟨⟨i, rfl⟩, hopc⟩
    obtain ⟨f, hform, hselect⟩ := select_of_instr i
    rw [← BitVec.eq_of_toNat_eq ((opcNumber_encode i).symm.trans hopc), legalWordsOf_of_opcodeForm hform]
    exact List.mem_map_of_mem (mem_commands_of_select hselect)

theorem legalWordsOf_nodup (o : BitVec 6) : (legalWordsOf o).Nodup := by
  cases hform : opcodeForm o with
  | none => simp [legalWordsOf, hform]
  | some f =>
    rw [legalWordsOf_of_opcodeForm hform]
    exact (Form.commands_nodup (encodes_of_opcodeForm hform)).map encode_injective

/-- A row's opcode, from its pattern. -/
def Row.opcode (r : Row) : BitVec 6 := opcField r.pattern

theorem legalWordsOf_length {r : Row} (hr : r ∈ opcodeTable) :
    (legalWordsOf r.opcode).length = if r.mnemonic ∈ ["NOT", "NEG", "SHL", "LSR"] then 3 else 12 := by
  revert r; decide

theorem opcode_mem_opcodeTable (i : Instr) : i.opcode ∈ opcodeTable.map Row.opcode := by
  have hall : ∀ o : BitVec 6, (opcodeForm o).isSome = true → o ∈ opcodeTable.map Row.opcode := by decide
  obtain ⟨f, hform, -⟩ := select_of_instr i
  exact hall _ (by rw [hform]; rfl)

/-- The table's opcodes are distinct, so no word belongs to two rows. -/
theorem opcodeTable_opcodes_nodup : (opcodeTable.map Row.opcode).Nodup := by decide

/-- The legal words of all rows. -/
def allLegalWords : List CommandWord := opcodeTable.flatMap fun r => legalWordsOf r.opcode

theorem mem_allLegalWords {w : CommandWord} : w ∈ allLegalWords ↔ ∃ i, decode w = .ok i := by
  simp only [allLegalWords, List.mem_flatMap, mem_legalWordsOf]
  constructor
  · rintro ⟨-, -, hok, -⟩
    exact hok
  · rintro ⟨i, hi⟩
    obtain ⟨r, hr, hopc⟩ := List.mem_map.mp (opcode_mem_opcodeTable i)
    refine ⟨r, hr, ⟨i, hi⟩, ?_⟩
    rw [hopc, ← encodeOfDecode w i hi, opcNumber_encode]

theorem allLegalWords_nodup : allLegalWords.Nodup := by
  refine List.nodup_flatMap.mpr ⟨fun r _ => legalWordsOf_nodup r.opcode, ?_⟩
  refine (List.pairwise_map.mp opcodeTable_opcodes_nodup).imp fun {r r'} hne w hw hw' => hne ?_
  exact BitVec.eq_of_toNat_eq ((mem_legalWordsOf.mp hw).2.symm.trans (mem_legalWordsOf.mp hw').2)

theorem allLegalWords_length : allLegalWords.length = 228 := by
  rw [allLegalWords, List.length_flatMap]
  decide

/-- Settles O4: a legal word is a command's word, so the words of a row are as many as the selectors its form takes, and
the rows' opcodes are distinct. -/
theorem legalWordCounts : Obligations.LegalWordCounts := by
  refine ⟨fun w hopc hbsel => ?_, fun r hr => ?_, ?_⟩
  · exact (decode_eq_error_iff w).mpr (.inr (.inr (.inr ⟨hopc, hbsel⟩)))
  · refine ⟨legalWordsOf r.opcode, legalWordsOf_nodup _, legalWordsOf_length hr, fun w => ?_⟩
    rw [mem_legalWordsOf, Row.opcode, opcField_toNat]
  · exact ⟨allLegalWords, allLegalWords_nodup, allLegalWords_length, fun w => mem_allLegalWords⟩

end Sys2Proof
end

section
/-! The assembler (spec/30_encoding.md R73 to R75) and what a step does with a presented word (R66, R69). -/

namespace Sys2Proof.Machine

open Sys2Proof.Claims

/-! ## A presented word -/

/-- Settles O8: the decoder accepts the word, so its command runs. -/
theorem stepRunsTheDecodedCommand : Obligations.StepRunsTheDecodedCommand :=
  ⟨fun _ _ _ _ h hdecode => (step_command h).trans (runCommand_ok hdecode), fun _ h => step_of_idle h⟩

theorem raise_illegal_eq (s : State) : s.raise .illegal = illegal s := by
  simp [State.raise_eq, illegal, BlockFault.code]

/-- Settles O9: the decoder rejects exactly the words with one of R69's conditions. -/
theorem illegalWordFaults : Obligations.IllegalWordFaults := by
  intro s p rest h hillegal
  obtain ⟨why, hwhy⟩ := (decode_eq_error_iff p.cmd).mpr hillegal
  rw [step_illegal h hwhy, raise_illegal_eq]

/-! ## The parts of a command as written -/

theorem packFields_eq_wordOf (b a : BitVec 2) (o : BitVec 6) : packFields 0 b a o = wordOf o.toNat a.toNat b.toNat := by
  have hb := b.isLt
  have ha := a.isLt
  have ho := o.isLt
  apply BitVec.eq_of_toNat_eq
  rw [packFields_toNat, wordOf, BitVec.toNat_ofNat, BitVec.ofNat_eq_ofNat, BitVec.toNat_zero]
  omega

theorem encode_eq_wordOf (i : Instr) :
    encode i = wordOf i.opcode.toNat (aNumber i.asel) ((i.bsel.map bNumber).getD 0) := by
  have ha : i.asel.bits.toNat = aNumber i.asel := by cases i.asel <;> rfl
  have hb : ((i.bsel.map BSel.bits).getD 0).toNat = (i.bsel.map bNumber).getD 0 := by
    cases i.bsel with
    | none => rfl
    | some b => cases b <;> rfl
  rw [encode, packFields_eq_wordOf, ha, hb]

theorem assembleA_of_okA {n : Nat} {x : AsmOperand} (h : x.okA n = true) :
    ∃ a v, assembleA x = some (a, v) ∧ v < 2 ^ n ∧ FirstAsWritten x (aNumber a) v := by
  cases x with
  | num v => exact ⟨.port, v, rfl, of_decide_eq_true h, rfl, rfl⟩
  | r0 => exact ⟨.r0, 0, rfl, Nat.two_pow_pos n, rfl, rfl⟩
  | r1 => exact ⟨.r1, 0, rfl, Nat.two_pow_pos n, rfl, rfl⟩
  | zx v => cases h

theorem assembleB_of_okB {n : Nat} {y : AsmOperand} (h : y.okB n = true) :
    ∃ b v s, assembleB y = (b, v, s) ∧ v < 2 ^ n ∧ s < 2 ^ 64 ∧ SecondAsWritten y (bNumber b) v s := by
  have hzero : 0 < 2 ^ n := Nat.two_pow_pos n
  cases y with
  | num v => exact ⟨.port, v, 0, rfl, of_decide_eq_true h, by decide, rfl, rfl, rfl⟩
  | r0 => exact ⟨.r0, 0, 0, rfl, hzero, by decide, rfl, rfl, rfl⟩
  | r1 => exact ⟨.r1, 0, 0, rfl, hzero, by decide, rfl, rfl, rfl⟩
  | zx s => exact ⟨.zextS, 0, s, rfl, hzero, of_decide_eq_true h, rfl, rfl, rfl⟩

theorem eq_num_of_okS {y : AsmOperand} (h : y.okS = true) : ∃ s, y = .num s ∧ s < 2 ^ 64 := by
  cases y with
  | num s => exact ⟨s, rfl, of_decide_eq_true h⟩
  | r0 | r1 | zx v => cases h

/-! ## Expansions (R74)

Every mnemonic comes down to a core command of its opcode, with or without a second selector. -/

theorem expand_aopBop {m : Mnemonic} (h : m.shape = .aopBop) :
    ∃ m' mk, (∀ ops, expand ⟨m, ops⟩ = ⟨m', ops⟩) ∧ twoOperandInstr m' = some mk
      ∧ (Form.readsAB mk).Encodes (opcodeNumber m)
      ∧ ∀ y b v s, SecondAsWritten y b v s → RestAsWritten m [y] b v s := by
  cases m with
  | not | neg | shl | lsr | mov | inc | dec | tstz => cases h
  | _ => exact ⟨_, _, fun _ => rfl, rfl, fun _ _ => ⟨rfl, rfl, rfl⟩, fun y _ _ _ hy => ⟨y, rfl, hy⟩⟩

/-- NOT and NEG have no second operand; MOV, INC, DEC and TSTZ get a constant as theirs. -/
theorem expand_aop {m : Mnemonic} (h : m.shape = .aop) :
    (∃ mk, (∀ ops, expand ⟨m, ops⟩ = ⟨m, ops⟩) ∧ oneOperandInstr m = some mk
        ∧ (Form.readsA mk).Encodes (opcodeNumber m) ∧ RestAsWritten m [] 0 0 0)
      ∨ ∃ m' mk c, (∀ ops, expand ⟨m, ops⟩ = ⟨m', ops ++ [.zx c]⟩) ∧ c < 2 ^ 64 ∧ twoOperandInstr m' = some mk
        ∧ (Form.readsAB mk).Encodes (opcodeNumber m)
        ∧ ∀ b v s, SecondAsWritten (.zx c) b v s → RestAsWritten m [] b v s := by
  cases m with
  | not | neg => exact .inl ⟨_, fun _ => rfl, rfl, fun _ => ⟨rfl, rfl, rfl⟩, rfl, rfl, rfl, rfl⟩
  | mov | tstz | inc | dec =>
    exact .inr ⟨_, _, _, fun _ => rfl, by decide, rfl, fun _ _ => ⟨rfl, rfl, rfl⟩, fun _ _ _ hy => ⟨rfl, hy⟩⟩
  | _ => cases h

theorem expand_aopSop {m : Mnemonic} (h : m.shape = .aopSop) :
    ∃ mk, (∀ ops, expand ⟨m, ops⟩ = ⟨m, ops⟩) ∧ twoOperandInstr m = none ∧ oneOperandInstr m = some mk
      ∧ (Form.readsA mk).Encodes (opcodeNumber m) ∧ ∀ s, RestAsWritten m [.num s] 0 0 s := by
  cases m with
  | shl | lsr => exact ⟨_, fun _ => rfl, rfl, rfl, fun _ => ⟨rfl, rfl, rfl⟩, fun _ => ⟨rfl, rfl, rfl⟩⟩
  | _ => cases h

/-! ## Core lines -/

section
variable {n : Nat} {m : Mnemonic} {x : AsmOperand} {a : ASel × Nat}

theorem assembleCore_readsAB {mk : ASel → BSel → Instr} {y : AsmOperand} {b : BSel × Nat × Nat}
    (hm : twoOperandInstr m = some mk) (hx : assembleA x = some a) (hy : assembleB y = b) :
    assembleCore n ⟨m, [x, y]⟩ = some (presentInstr n (mk a.1 b.1) a.2 b.2.1 b.2.2) := by
  simp [assembleCore, hm, hx, hy]

theorem assembleCore_readsA {mk : ASel → Instr} (hm : oneOperandInstr m = some mk) (hx : assembleA x = some a) :
    assembleCore n ⟨m, [x]⟩ = some (presentInstr n (mk a.1) a.2 0 0) := by
  simp [assembleCore, hm, hx]

theorem assembleCore_amount {mk : ASel → Instr} {s : Nat} (htwo : twoOperandInstr m = none)
    (hm : oneOperandInstr m = some mk) (hx : assembleA x = some a) :
    assembleCore n ⟨m, [x, .num s]⟩ = some (presentInstr n (mk a.1) a.2 0 s) := by
  simp [assembleCore, assembleS, htwo, hm, hx]

end

/-! ## The assembler -/

/-- The ports hold the command and the numbers of the line as written (R67, R73, R74). -/
def PortsAsWritten {n : Nat} (l : AsmLine) (p : Ports n) : Prop :=
  ∃ (i : Instr) (x : AsmOperand) (rest : List AsmOperand) (asel bsel : Nat),
    p.cmd = wordOf (opcodeNumber l.mnemonic) asel bsel
      ∧ decode p.cmd = .ok i ∧ aNumber i.asel = asel ∧ (i.bsel.map bNumber).getD 0 = bsel
      ∧ l.operands = x :: rest ∧ FirstAsWritten x asel p.a.toNat
      ∧ RestAsWritten l.mnemonic rest bsel p.b.toNat p.s.toNat

/-- The ports of a command of the mnemonic's opcode are as written when its selectors and numbers are. -/
theorem presentInstr_asWritten {n : Nat} {m : Mnemonic} {x : AsmOperand} {rest : List AsmOperand} {i : Instr}
    {a b s : Nat} (hopc : i.opcode.toNat = opcodeNumber m) (ha : a < 2 ^ n) (hb : b < 2 ^ n) (hs : s < 2 ^ 64)
    (hfirst : FirstAsWritten x (aNumber i.asel) a)
    (hrest : RestAsWritten m rest ((i.bsel.map bNumber).getD 0) b s) :
    PortsAsWritten ⟨m, x :: rest⟩ (presentInstr n i a b s) := by
  refine ⟨i, x, rest, _, _, ?_, decodeOfEncode i, rfl, rfl, rfl, ?_, ?_⟩
  · rw [← hopc]; exact encode_eq_wordOf i
  · rwa [presentInstr, BitVec.toNat_ofNat, Nat.mod_eq_of_lt ha]
  · rwa [presentInstr, BitVec.toNat_ofNat, BitVec.toNat_ofNat, Nat.mod_eq_of_lt hb, Nat.mod_eq_of_lt hs]

section
variable {n : Nat} {m : Mnemonic} {x : AsmOperand}

/-- A core line of the mnemonic's opcode with `y` as its second operand, for a mnemonic that `y` is written for. -/
theorem assembleCore_readsAB_asWritten {m' : Mnemonic} {mk : ASel → BSel → Instr} {y : AsmOperand}
    {rest : List AsmOperand} (htwo : twoOperandInstr m' = some mk) (henc : (Form.readsAB mk).Encodes (opcodeNumber m))
    (hx : x.okA n = true) (hy : y.okB n = true) (hrest : ∀ b v s, SecondAsWritten y b v s → RestAsWritten m rest b v s) :
    ∃ p, assembleCore n ⟨m', [x, y]⟩ = some p ∧ PortsAsWritten ⟨m, x :: rest⟩ p := by
  obtain ⟨a, va, hA, hva, hfirst⟩ := assembleA_of_okA hx
  obtain ⟨b, vb, s, hB, hvb, hs, hsecond⟩ := assembleB_of_okB hy
  obtain ⟨hopc, hasel, hbsel⟩ := henc a b
  refine ⟨_, assembleCore_readsAB htwo hA hB, presentInstr_asWritten hopc hva hvb hs ?_ ?_⟩
  · rwa [hasel]
  · rw [hbsel]; exact hrest _ _ _ hsecond

theorem assembleCore_expand_aopBop {y : AsmOperand} (hm : m.shape = .aopBop) (hx : x.okA n = true)
    (hy : y.okB n = true) :
    ∃ p, assembleCore n (expand ⟨m, [x, y]⟩) = some p ∧ PortsAsWritten ⟨m, [x, y]⟩ p := by
  obtain ⟨m', mk, hexpand, htwo, henc, hrest⟩ := expand_aopBop hm
  rw [hexpand]
  exact assembleCore_readsAB_asWritten htwo henc hx hy (hrest y)

theorem assembleCore_expand_aop (hm : m.shape = .aop) (hx : x.okA n = true) :
    ∃ p, assembleCore n (expand ⟨m, [x]⟩) = some p ∧ PortsAsWritten ⟨m, [x]⟩ p := by
  rcases expand_aop hm with ⟨mk, hexpand, hone, henc, hrest⟩ | ⟨m', mk, c, hexpand, hc, htwo, henc, hrest⟩
  · obtain ⟨a, va, hA, hva, hfirst⟩ := assembleA_of_okA hx
    obtain ⟨hopc, hasel, hbsel⟩ := henc a
    rw [hexpand]
    refine ⟨_, assembleCore_readsA hone hA, presentInstr_asWritten hopc hva (Nat.two_pow_pos n) (by decide) ?_ ?_⟩
    · rwa [hasel]
    · rwa [hbsel]
  · rw [hexpand]
    exact assembleCore_readsAB_asWritten htwo henc hx (decide_eq_true hc) hrest

theorem assembleCore_expand_aopSop {s : Nat} (hm : m.shape = .aopSop) (hx : x.okA n = true) (hs : s < 2 ^ 64) :
    ∃ p, assembleCore n (expand ⟨m, [x, .num s]⟩) = some p ∧ PortsAsWritten ⟨m, [x, .num s]⟩ p := by
  obtain ⟨mk, hexpand, htwo, hone, henc, hrest⟩ := expand_aopSop hm
  obtain ⟨a, va, hA, hva, hfirst⟩ := assembleA_of_okA hx
  obtain ⟨hopc, hasel, hbsel⟩ := henc a
  rw [hexpand]
  refine ⟨_, assembleCore_amount htwo hone hA, presentInstr_asWritten hopc hva (Nat.two_pow_pos n) hs ?_ ?_⟩
  · rwa [hasel]
  · rw [hbsel]; exact hrest s

end

/-- The well-formed lines, by the shape of their mnemonic (R73). -/
theorem wellFormed_cases {n : Nat} {l : AsmLine} (h : l.wellFormed n = true) :
    (∃ x y, l.operands = [x, y] ∧ l.mnemonic.shape = .aopBop ∧ x.okA n = true ∧ y.okB n = true)
      ∨ (∃ x, l.operands = [x] ∧ l.mnemonic.shape = .aop ∧ x.okA n = true)
      ∨ ∃ x s, l.operands = [x, .num s] ∧ l.mnemonic.shape = .aopSop ∧ x.okA n = true ∧ s < 2 ^ 64 := by
  unfold AsmLine.wellFormed at h
  split at h
  next x y hshape hops =>
    obtain ⟨hx, hy⟩ := Bool.and_eq_true_iff.mp h
    exact .inl ⟨x, y, hops, hshape, hx, hy⟩
  next x hshape hops => exact .inr (.inl ⟨x, hops, hshape, h⟩)
  next x y hshape hops =>
    obtain ⟨hx, hy⟩ := Bool.and_eq_true_iff.mp h
    obtain ⟨s, rfl, hs⟩ := eq_num_of_okS hy
    exact .inr (.inr ⟨x, s, hops, hshape, hx, hs⟩)
  all_goals cases h

theorem assembleCore_expand_of_wellFormed {n : Nat} {l : AsmLine} (h : l.wellFormed n = true) :
    ∃ p, assembleCore n (expand l) = some p ∧ PortsAsWritten l p := by
  obtain ⟨m, ops⟩ := l
  rcases wellFormed_cases h with ⟨x, y, rfl, hm, hx, hy⟩ | ⟨x, rfl, hm, hx⟩ | ⟨x, s, rfl, hm, hx, hs⟩
  · exact assembleCore_expand_aopBop hm hx hy
  · exact assembleCore_expand_aop hm hx
  · exact assembleCore_expand_aopSop hm hx hs

theorem assemble_of_wellFormed {n : Nat} {l : AsmLine} (h : l.wellFormed n = true) :
    assemble n l = assembleCore n (expand l) := if_pos h

theorem assemble_of_not_wellFormed {n : Nat} {l : AsmLine} (h : ¬ l.wellFormed n = true) : assemble n l = none :=
  if_neg h

/-- Settles O6: a well-formed line assembles, through its expansion, to ports that are as written, and every other line is
an error. -/
theorem assemblerAcceptsExactlyTheWellFormedLines : Obligations.AssemblerAcceptsExactlyTheWellFormedLines := by
  intro n l
  by_cases h : l.wellFormed n = true
  · obtain ⟨q, hq, hwritten⟩ := assembleCore_expand_of_wellFormed h
    rw [← assemble_of_wellFormed h] at hq
    refine ⟨by rw [hq, h]; rfl, fun p hp => ?_⟩
    cases hq.symm.trans hp
    exact hwritten
  · rw [assemble_of_not_wellFormed h, Bool.eq_false_of_not_eq_true h]
    exact ⟨rfl, fun p hp => by cases hp⟩

/-! ## Pseudo-instructions -/

theorem assemble_eq_of_expand_eq {n : Nat} {l l' : AsmLine} (hexpand : expand l = expand l')
    (hwf : l.wellFormed n = l'.wellFormed n) : assemble n l = assemble n l' := by
  rw [assemble, assemble, hexpand, hwf]

/-- A constant that fits the S port as second operand asks nothing more of the line. -/
theorem okA_eq_okA_and_okB_zx (n : Nat) (a : AsmOperand) {c : Nat} (hc : c < 2 ^ 64) :
    a.okA n = (a.okA n && (AsmOperand.zx c).okB n) := by
  rw [AsmOperand.okB, decide_eq_true hc, Bool.and_true]

theorem sum_one {n : Nat} (x : BitVec n) : sum x 1#n = BitVec.ofNat n (x.toNat + 1) := by
  rw [sum, BitVec.ofNat_add, BitVec.ofNat_toNat, BitVec.setWidth_eq]

/-- Taking 1 away adds the word of ones. -/
theorem difference_one {n : Nat} (x : BitVec n) : difference x 1#n = BitVec.ofNat n (x.toNat + (2 ^ n - 1)) := by
  have hones : BitVec.allOnes n = BitVec.ofNat n (2 ^ n - 1) := BitVec.eq_of_toNat_eq (by simp)
  have hneg : negate 1#n = BitVec.ofNat n (2 ^ n - 1) := by
    rw [negate, sum, ← BitVec.neg_eq_not_add, BitVec.neg_one_eq_allOnes, hones]
  rw [difference, hneg, sum, BitVec.ofNat_add, BitVec.ofNat_toNat, BitVec.setWidth_eq]

theorem one_setWidth (n : Nat) : (1 : Scalar).setWidth n = 1#n := by
  apply BitVec.eq_of_toNat_eq
  simp

theorem opA_eq_operandA (s : State) (a : ASel) : s.opA a = operandA s a := by cases a <;> rfl

theorem scalarOperand_eq {s : State} {c : Scalar} (h : s.ports.s = c) : s.scalarOperand = c.setWidth s.width :=
  congrArg (BitVec.setWidth s.width) h

section
variable {s : State} {a : ASel} {x : BitVec s.width} (hA : operandA s a = some x)
include hA

/-- A command with a constant on the S port as its second operand. -/
theorem withAB_zextS {c : Scalar} (hs : s.ports.s = c) (effect : BitVec s.width → BitVec s.width → State) :
    withAB s a .zextS effect = .next (effect x (c.setWidth s.width)) :=
  withAB_valid effect ((opA_eq_operandA s a).trans hA) (congrArg some (scalarOperand_eq hs))

/-- MOV: `x | 0 = x`. -/
theorem exec_or_zero (hs : s.ports.s = 0) : exec (.or a .zextS) s = .next { s with r0 := some x, code := .ok } := by
  refine (withAB_zextS hA hs _).trans ?_
  simp [State.writeR0_eq, State.complete_eq]

/-- TSTZ compares with 0. -/
theorem exec_eq_zero (hs : s.ports.s = 0) : exec (.eq a .zextS) s = .next (toCf s (decide (x.toNat = 0))) := by
  refine (withAB_zextS hA hs _).trans ?_
  simp [State.writeCf_eq, State.complete_eq, toCf, eqFlag]

/-- INC adds 1. -/
theorem exec_add_one (hs : s.ports.s = 1) : exec (.add a .zextS) s = .next (toR0 s (x.toNat + 1)) := by
  refine (withAB_zextS hA hs _).trans ?_
  rw [one_setWidth, sum_one, State.writeR0_eq, State.complete_eq, toR0]

/-- DEC adds `2 ^ N - 1`, which is -1. -/
theorem exec_sub_one (hs : s.ports.s = 1) :
    exec (.sub a .zextS) s = .next (toR0 s (x.toNat + (2 ^ s.width - 1))) := by
  refine (withAB_zextS hA hs _).trans ?_
  rw [one_setWidth, difference_one, State.writeR0_eq, State.complete_eq, toR0]

end

/-- Settles O7: a pseudo-instruction and its expansion expand to the same core line and ask the same of the operands. -/
theorem pseudoInstructionsExpandAndAct : Obligations.PseudoInstructionsExpandAndAct := by
  refine ⟨fun n a => ?_, fun n a b => ?_, fun a s x hA hs => ⟨exec_or_zero hA hs, exec_eq_zero hA hs⟩,
    fun a s x hA hs => ⟨exec_add_one hA hs, exec_sub_one hA hs⟩⟩
  · have hwf {c : Nat} (hc : c < 2 ^ 64) := okA_eq_okA_and_okB_zx n a hc
    exact ⟨assemble_eq_of_expand_eq rfl (hwf (by decide)), assemble_eq_of_expand_eq rfl (hwf (by decide)),
      assemble_eq_of_expand_eq rfl (hwf (by decide)), assemble_eq_of_expand_eq rfl (hwf (by decide))⟩
  · exact ⟨assemble_eq_of_expand_eq rfl rfl, assemble_eq_of_expand_eq rfl rfl, assemble_eq_of_expand_eq rfl rfl,
      assemble_eq_of_expand_eq rfl rfl, assemble_eq_of_expand_eq rfl rfl⟩

/-! ## The spec's examples -/

/-- Settles O5: each text runs through the assembler, and its word is the encoding of the command it decodes to. -/
theorem encodingExamples : Obligations.EncodingExamples := by
  refine ⟨⟨?_, decode_eq_ok_iff.mpr rfl⟩, ⟨?_, decode_eq_ok_iff.mpr rfl⟩, ⟨?_, decode_eq_ok_iff.mpr rfl⟩,
    ⟨?_, decode_eq_ok_iff.mpr rfl⟩, ⟨?_, decode_eq_ok_iff.mpr rfl⟩, ⟨?_, decode_eq_ok_iff.mpr rfl⟩,
    ⟨?_, decode_eq_ok_iff.mpr rfl⟩, ⟨?_, decode_eq_ok_iff.mpr rfl⟩, ⟨?_, decode_eq_ok_iff.mpr rfl⟩,
    decode_eq_ok_iff.mpr rfl, rfl⟩
  all_goals decide +kernel

end Sys2Proof.Machine
end

section
/-! The shape of a command rule (R12), for every command that reads one or two operands: from the form of its opcode and
its answer on valid operands follow its encoding, its illegal words, its effect and its operand fault. -/

namespace Sys2Proof.Machine

open Sys2Proof.Claims

/-! ## Operands and faults as the rules write them -/

section
variable (s : State)

theorem opB_eq_operandB (b : BSel) : s.opB b = operandB s b := by
  cases b with
  | zextS => exact congrArg some (BitVec.ofNat_toNat s.width s.ports.s).symm
  | _ => rfl

theorem raise_undefOperand_eq : s.raise .undefOperand = undefined s := by
  simp [State.raise_eq, undefined, BlockFault.code]

/-- The next state of a command that writes R0 alone. -/
theorem finish_r0_eq_toR0 {v : BitVec s.width} {m : Nat} (h : v = BitVec.ofNat s.width m) :
    s.finish { r0 := some v } = toR0 s m := by
  subst h
  exact finish_of_code_ok s (w := { r0 := some (BitVec.ofNat s.width m) }) rfl

/-- The next state of a command that writes CF alone. -/
theorem finish_cf_eq_toCf {c d : Bool} (h : c = d) : s.finish { cf := some c } = toCf s d := by
  subst h
  exact finish_of_code_ok s (w := { cf := some c }) rfl

end

section
variable {s : State} {i : Instr}

theorem exec_of_operands {x y : BitVec s.width} (hA : s.opA i.asel = some x) (hB : s.secondOperand i = some y) :
    exec i s = .next (s.finish (instrAnswer i (s.shiftAmount i) x y)) := by
  rw [exec_eq_finish, State.answer, hA, hB, Answer.ofOperands]

theorem exec_of_missing_operand (h : s.opA i.asel = none ∨ s.secondOperand i = none) :
    exec i s = .next (undefined s) := by
  have hanswer : s.answer i = .fault .undefOperand := by
    unfold State.answer
    rcases h with hA | hB
    · rw [hA]; rfl
    · rw [hB]; cases s.opA i.asel <;> rfl
  rw [exec_eq_finish, hanswer, ← raise_eq_finish, raise_undefOperand_eq]

theorem secondOperand_of_bsel {b : BSel} (h : i.bsel = some b) : s.secondOperand i = operandB s b := by
  rw [State.secondOperand, h, ← opB_eq_operandB]

theorem secondOperand_of_no_bsel (h : i.bsel = none) : s.secondOperand i = some 0 := by
  rw [State.secondOperand, h]

end

/-! ## The two shapes -/

/-- What R69 makes illegal faults, whatever opcode the rule is for. -/
theorem faultsIllegal_of_illegalWord {opc : Nat} {bad : CommandWord → Prop}
    (h : ∀ w, opcNumber w = opc → bad w → illegalWord w) : FaultsIllegal opc bad :=
  fun s p rest hp hopc hbad => illegalWordFaults s p rest hp (h p.cmd hopc hbad)

/-- The word of a command is written with the numbers of its opcode and selectors. -/
theorem decode_wordOf {i : Instr} {opc a b : Nat} (hopc : i.opcode.toNat = opc) (ha : aNumber i.asel = a)
    (hb : (i.bsel.map bNumber).getD 0 = b) : decode (wordOf opc a b) = .ok i :=
  decode_eq_ok_iff.mpr (by rw [encode_eq_wordOf, hopc, ha, hb])

/-- A command that reads A and B keeps its rule when its answer on valid operands has the rule's effect. -/
theorem twoOperandRule_of_finish {opc : Nat} {mk : ASel → BSel → Instr}
    {effect : (s : State) → BitVec s.width → BitVec s.width → State} (hform : (Form.readsAB mk).Encodes opc)
    (heffect : ∀ a b s x y, s.finish (instrAnswer (mk a b) (s.shiftAmount (mk a b)) x y) = effect s x y) :
    TwoOperandRule opc mk effect := by
  refine ⟨fun a b => ?_, faultsIllegal_of_illegalWord fun w _ hbad => ?_, fun a b s x y hA hB => ?_, fun a b s h => ?_⟩
  · obtain ⟨hopc, ha, hb⟩ := hform a b
    exact decode_wordOf hopc (by rw [ha]) (by rw [hb]; rfl)
  · rcases hbad with hrsv | hasel
    · exact .inl hrsv
    · exact .inr (.inr (.inl hasel))
  · obtain ⟨-, ha, hb⟩ := hform a b
    rw [← heffect a b s x y]
    exact exec_of_operands (by rw [ha, opA_eq_operandA, hA]) (by rw [secondOperand_of_bsel hb, hB])
  · obtain ⟨-, ha, hb⟩ := hform a b
    exact exec_of_missing_operand (by rwa [ha, opA_eq_operandA, secondOperand_of_bsel hb])

/-- A command that reads A alone keeps its rule when its answer on a valid operand has the rule's effect; the second
operand of the answer is then 0 and has no part in it. -/
theorem oneOperandRule_of_finish {opc : Nat} {mk : ASel → Instr} {effect : (s : State) → BitVec s.width → State}
    (hform : (Form.readsA mk).Encodes opc) (hopcode : opc ∈ [0x04, 0x13, 0x18, 0x19])
    (heffect : ∀ a s x, s.finish (instrAnswer (mk a) (s.shiftAmount (mk a)) x 0) = effect s x) :
    OneOperandRule opc mk effect := by
  refine ⟨fun a => ?_, faultsIllegal_of_illegalWord fun w hw hbad => ?_, fun a s x hA => ?_, fun a s h => ?_⟩
  · obtain ⟨hopc, ha, hb⟩ := hform a
    exact decode_wordOf hopc (by rw [ha]) (by rw [hb]; rfl)
  · rcases hbad with hrsv | hasel | hbsel
    · exact .inl hrsv
    · exact .inr (.inr (.inl hasel))
    · exact .inr (.inr (.inr ⟨hw ▸ hopcode, hbsel⟩))
  · obtain ⟨-, ha, hb⟩ := hform a
    rw [← heffect a s x]
    exact exec_of_operands (by rw [ha, opA_eq_operandA, hA]) (secondOperand_of_no_bsel hb)
  · obtain ⟨-, ha, -⟩ := hform a
    exact exec_of_missing_operand (.inl (by rw [ha, opA_eq_operandA, h]))

end Sys2Proof.Machine
end

section
/-! The bitwise and the comparison commands (spec/40_compare_bitwise.md R87 to R96): each by its rule's shape and the
value of its answer. -/

namespace Sys2Proof.Machine

open Sys2Proof.Claims

theorem eq_ofNat_of_toNat_eq {n m : Nat} {v : BitVec n} (h : v.toNat = m) : v = BitVec.ofNat n m := by
  rw [← h, BitVec.ofNat_toNat, BitVec.setWidth_eq]

/-- Settles O26: the answers' values are the operators on naturals. -/
theorem bitwiseCommands : Obligations.BitwiseCommands :=
  ⟨twoOperandRule_of_finish (encodes_of_opcodeForm (o := 0x01) rfl) fun _ _ s x y =>
      finish_r0_eq_toR0 s (eq_ofNat_of_toNat_eq (BitVec.toNat_and x y)),
    twoOperandRule_of_finish (encodes_of_opcodeForm (o := 0x02) rfl) fun _ _ s x y =>
      finish_r0_eq_toR0 s (eq_ofNat_of_toNat_eq (BitVec.toNat_or x y)),
    twoOperandRule_of_finish (encodes_of_opcodeForm (o := 0x03) rfl) fun _ _ s x y =>
      finish_r0_eq_toR0 s (eq_ofNat_of_toNat_eq (BitVec.toNat_xor x y))⟩

/-- Settles O27: the complement is the distance from the word of ones, and NOT's opcode is one of R68's four. -/
theorem notCommand : Obligations.NotCommand :=
  oneOperandRule_of_finish (encodes_of_opcodeForm (o := 0x04) rfl) (by decide) fun _ s _ =>
    finish_r0_eq_toR0 s (eq_ofNat_of_toNat_eq BitVec.toNat_not)

section
variable {n : Nat} (x y : BitVec n)

theorem neFlag_eq : neFlag x y = decide (x.toNat ≠ y.toNat) := decide_not.symm

theorem leFlag_eq : leFlag x y = decide (x.toNat ≤ y.toNat) := by
  simp [leFlag, ltFlag, eqFlag, Nat.le_iff_lt_or_eq]

theorem geFlag_eq : geFlag x y = decide (x.toNat ≥ y.toNat) := by
  simp [geFlag, ltFlag, ← decide_not]

end

/-- Settles O28: EQ, LT and GT are their flags as written; NE, LE and GE are derived from EQ and LT. -/
theorem comparisonCommands : Obligations.ComparisonCommands :=
  ⟨twoOperandRule_of_finish (encodes_of_opcodeForm (o := 0x08) rfl) fun _ _ s _ _ => finish_cf_eq_toCf s rfl,
    twoOperandRule_of_finish (encodes_of_opcodeForm (o := 0x09) rfl) fun _ _ s x y =>
      finish_cf_eq_toCf s (neFlag_eq x y),
    twoOperandRule_of_finish (encodes_of_opcodeForm (o := 0x0A) rfl) fun _ _ s _ _ => finish_cf_eq_toCf s rfl,
    twoOperandRule_of_finish (encodes_of_opcodeForm (o := 0x0B) rfl) fun _ _ s x y =>
      finish_cf_eq_toCf s (leFlag_eq x y),
    twoOperandRule_of_finish (encodes_of_opcodeForm (o := 0x0C) rfl) fun _ _ s _ _ => finish_cf_eq_toCf s rfl,
    twoOperandRule_of_finish (encodes_of_opcodeForm (o := 0x0D) rfl) fun _ _ s x y =>
      finish_cf_eq_toCf s (geFlag_eq x y)⟩

end Sys2Proof.Machine
end

section
/-! The limb recursions of the bitwise and the comparison unit (spec/40_compare_bitwise.md R85, R86): an operation on
the two limbs of a value against the operation on the value, then induction on the width exponent. -/

namespace Sys2Proof.Machine

/-! ## Bitwise operations (R85) -/

section
variable {f : Bool → Bool → Bool} (hf : f false false = false)
include hf

/-- A field of a bitwise result is the operation on the fields. -/
theorem field_bitwise (lo w x y : Nat) :
    field lo w (Nat.bitwise f x y) = Nat.bitwise f (field lo w x) (field lo w y) := by
  rw [field, Nat.bitwise_div_two_pow hf, Nat.bitwise_mod_two_pow hf, field, field]

theorem limbLo_bitwise (h x y : Nat) : limbLo h (Nat.bitwise f x y) = Nat.bitwise f (limbLo h x) (limbLo h y) :=
  field_bitwise hf 0 h x y

theorem limbHi_bitwise (h x y : Nat) : limbHi h (Nat.bitwise f x y) = Nat.bitwise f (limbHi h x) (limbHi h y) :=
  field_bitwise hf h h x y

theorem limbBitop_bitwise {e x y : Nat} (hx : x < 2 ^ Config.width e) (hy : y < 2 ^ Config.width e) :
    limbBitop (Nat.bitwise f) e x y = Nat.bitwise f x y := by
  induction e generalizing x y with
  | zero => rfl
  | succ e ih =>
    have hresult : Nat.bitwise f x y < 2 ^ (2 * Config.width e) :=
      Config.width_succ e ▸ Nat.bitwise_lt_two_pow hx hy
    rw [limbBitop, ih (limbHi_lt _ x) (limbHi_lt _ y), ih (limbLo_lt _ x) (limbLo_lt _ y), ← limbHi_bitwise hf,
      ← limbLo_bitwise hf, concat_limbs hresult]

end

/-- The complement of two limbs is the complement of the value. -/
theorem concat_complement {h a b : Nat} (ha : a < 2 ^ h) (hb : b < 2 ^ h) :
    concat h (2 ^ h - 1 - a) (2 ^ h - 1 - b) = 2 ^ (2 * h) - 1 - concat h a b := by
  have hhigh : (2 ^ h - 1 - a) * 2 ^ h + a * 2 ^ h + 2 ^ h = 2 ^ (2 * h) := by
    rw [← Nat.add_mul, ← Nat.succ_mul, Nat.two_mul, Nat.pow_add]
    congr 1
    omega
  simp only [concat]
  omega

theorem limbNot_eq {e x : Nat} (hx : x < 2 ^ Config.width e) : limbNot e x = 2 ^ Config.width e - 1 - x := by
  induction e generalizing x with
  | zero => rfl
  | succ e ih =>
    rw [Config.width_succ] at hx ⊢
    rw [limbNot, ih (limbHi_lt _ x), ih (limbLo_lt _ x), concat_complement (limbHi_lt _ x) (limbLo_lt _ x),
      concat_limbs hx]

/-- Settles O44: and, or and xor are bit-by-bit operations that keep 0, and the complement goes limb by limb. -/
theorem limbBitwiseIsBitwise : Obligations.LimbBitwiseIsBitwise := fun _ _ _ hx hy =>
  ⟨limbBitop_bitwise (f := and) rfl hx hy, limbBitop_bitwise (f := or) rfl hx hy,
    limbBitop_bitwise (f := bne) rfl hx hy, limbNot_eq hx⟩

/-! ## Comparisons (R86) -/

section
variable {h x y : Nat} (hx : x < 2 ^ (2 * h)) (hy : y < 2 ^ (2 * h))
include hx hy

theorem eq_iff_limbs : x = y ↔ limbLo h x = limbLo h y ∧ limbHi h x = limbHi h y := by
  refine ⟨fun heq => heq ▸ ⟨rfl, rfl⟩, fun ⟨hlo, hhi⟩ => ?_⟩
  rw [← concat_limbs hx, ← concat_limbs hy, hlo, hhi]

/-- The high limbs decide the order unless they are equal. -/
theorem lt_iff_limbs :
    x < y ↔ limbHi h x < limbHi h y ∨ limbHi h x = limbHi h y ∧ limbLo h x < limbLo h y := by
  have hdx := Nat.div_add_mod x (2 ^ h)
  have hdy := Nat.div_add_mod y (2 ^ h)
  rw [limbHi_eq hx, limbHi_eq hy, limbLo_eq, limbLo_eq]
  rcases Nat.lt_trichotomy (x / 2 ^ h) (y / 2 ^ h) with hlt | heq | hgt
  · exact iff_of_true (Nat.lt_of_div_lt_div hlt) (.inl hlt)
  · rw [heq] at hdx ⊢
    omega
  · have hyx : y < x := Nat.lt_of_div_lt_div hgt
    omega

end

theorem limbEq_eq {e x y : Nat} (hx : x < 2 ^ Config.width e) (hy : y < 2 ^ Config.width e) :
    limbEq e x y = decide (x = y) := by
  induction e generalizing x y with
  | zero => rfl
  | succ e ih =>
    rw [Config.width_succ] at hx hy
    rw [limbEq, ih (limbLo_lt _ x) (limbLo_lt _ y), ih (limbHi_lt _ x) (limbHi_lt _ y), ← Bool.decide_and]
    exact decide_eq_decide.mpr (eq_iff_limbs hx hy).symm

theorem limbLt_eq {e x y : Nat} (hx : x < 2 ^ Config.width e) (hy : y < 2 ^ Config.width e) :
    limbLt e x y = decide (x < y) := by
  induction e generalizing x y with
  | zero => rfl
  | succ e ih =>
    rw [Config.width_succ] at hx hy
    rw [limbLt, ih (limbHi_lt _ x) (limbHi_lt _ y), ih (limbLo_lt _ x) (limbLo_lt _ y),
      limbEq_eq (limbHi_lt _ x) (limbHi_lt _ y), ← Bool.decide_and, ← Bool.decide_or]
    exact decide_eq_decide.mpr (lt_iff_limbs hx hy).symm

/-- Settles O45: the two recursions by value, then the trichotomy of naturals. -/
theorem limbComparisonIsComparison : Obligations.LimbComparisonIsComparison := by
  intro e x y hx hy
  refine ⟨limbEq_eq hx hy, limbLt_eq hx hy, ?_⟩
  rw [limbLt_eq hx hy, limbEq_eq hx hy, limbLt_eq hy hx]
  rcases Nat.lt_trichotomy x y with hlt | heq | hgt
  · simp [hlt, hlt.ne, hlt.not_gt]
  · simp [heq]
  · simp [hgt, hgt.ne', hgt.not_gt]

end Sys2Proof.Machine
end

section
/-! The adder's carry chain (spec/41_adder.md R100, R101): its sum and its carry are the remainder and the quotient of
`a + b` by `2 ^ N`. Negation and subtraction are built on it (R104, R105). -/

namespace Sys2Proof.Machine

/-! ## Carries -/

/-- The carry-out of two values below `m`. -/
theorem add_div_eq_ite {m a b : Nat} (ha : a < m) (hb : b < m) : (a + b) / m = if m ≤ a + b then 1 else 0 := by
  split
  · exact Nat.div_eq_of_lt_le (by omega) (by omega)
  · exact Nat.div_eq_of_lt (by omega)

theorem add_div_le_one {m a b : Nat} (ha : a < m) (hb : b < m) : (a + b) / m ≤ 1 := by
  rw [add_div_eq_ite ha hb]
  split <;> decide

theorem b2i_decide (p : Prop) [Decidable p] : b2i (decide p) = if p then 1 else 0 := by
  simp [b2i]

/-- The quotient of `u + k` comes from `u` and from adding `k` to the remainder of `u`. -/
theorem div_add_mod_add_div {m : Nat} (hm : 0 < m) (u k : Nat) : u / m + (u % m + k) / m = (u + k) / m := by
  rw [Nat.add_comm, ← Nat.add_mul_div_left _ _ hm, Nat.add_right_comm, Nat.mod_add_div]

section
variable {m a b k : Nat} (ha : a < m) (hb : b < m) (hk : k ≤ 1)
include ha hb hk

/-- R101: a sum that carried is at most `m - 2`, so a second carry cannot follow. -/
theorem no_second_carry (hcarry : (a + b) / m = 1) : ((a + b) % m + k) / m = 0 := by
  have hsplit := Nat.mod_add_div (a + b) m
  rw [hcarry] at hsplit
  exact Nat.div_eq_of_lt (by omega)

/-- R101: of the carries k2 and k3 at most one is 1, so their OR is their sum. -/
theorem carry_or_carry : (a + b) / m ||| ((a + b) % m + k) / m = (a + b + k) / m := by
  rw [← div_add_mod_add_div (Nat.zero_lt_of_lt ha) (a + b) k]
  rcases Nat.le_one_iff_eq_zero_or_eq_one.mp (add_div_le_one ha hb) with hzero | hone
  · rw [hzero, Nat.zero_or, Nat.zero_add]
  · rw [no_second_carry ha hb hk hone, Nat.or_zero, Nat.add_zero]

end

/-! ## The recursion -/

section
variable {h r : Nat} (hr : r < 2 ^ h) (q : Nat)
include hr

theorem concat_mod : concat h q r % 2 ^ h = r := by
  rw [concat, Nat.mul_add_mod_of_lt hr]

theorem concat_div : concat h q r / 2 ^ h = q := by
  rw [concat, Nat.add_comm, Nat.add_mul_div_right _ _ (Nat.two_pow_pos h), Nat.div_eq_of_lt hr, Nat.zero_add]

/-- Reducing to two limbs reduces the high limb alone. -/
theorem concat_mod_two_limbs : concat h q r % 2 ^ (2 * h) = concat h (q % 2 ^ h) r := by
  rw [Nat.two_mul, Nat.pow_add, Nat.mod_mul, concat_mod hr, concat_div hr, concat, Nat.add_comm, Nat.mul_comm]

/-- What leaves two limbs is what leaves the high limb. -/
theorem concat_div_two_limbs : concat h q r / 2 ^ (2 * h) = q / 2 ^ h := by
  rw [Nat.two_mul, Nat.pow_add, ← Nat.div_div_eq_div_mul, concat_div hr]

end

/-- Adding two values adds their low limbs, and their high limbs with the carry of the low limbs. -/
theorem add_eq_concat {h a b : Nat} (ha : a < 2 ^ (2 * h)) (hb : b < 2 ^ (2 * h)) :
    a + b = concat h (limbHi h a + limbHi h b + (limbLo h a + limbLo h b) / 2 ^ h)
      ((limbLo h a + limbLo h b) % 2 ^ h) := by
  have hlow := Nat.mod_add_div (limbLo h a + limbLo h b) (2 ^ h)
  conv_lhs => rw [← concat_limbs ha, ← concat_limbs hb]
  simp only [concat]
  linarith

theorem carryChain_eq {e a b : Nat} (ha : a < 2 ^ Config.width e) (hb : b < 2 ^ Config.width e) :
    carryChain e a b = ((a + b) % 2 ^ Config.width e, (a + b) / 2 ^ Config.width e) := by
  induction e generalizing a b with
  | zero =>
    rw [carryChain, b2i_decide, add_div_eq_ite ha hb]
    rfl
  | succ e ih =>
    rw [Config.width_succ] at ha hb ⊢
    have hL : 0 < 2 ^ Config.width e := Nat.two_pow_pos _
    have hk := add_div_le_one (limbLo_lt (Config.width e) a) (limbLo_lt _ b)
    have hone := Nat.one_lt_two_pow (Config.width_pos e).ne'
    simp only [carryChain]
    rw [ih (limbLo_lt _ a) (limbLo_lt _ b), ih (limbHi_lt _ a) (limbHi_lt _ b),
      ih (Nat.mod_lt _ hL) (hk.trans_lt hone), carry_or_carry (limbHi_lt _ a) (limbHi_lt _ b) hk, add_eq_concat ha hb,
      concat_mod_two_limbs (Nat.mod_lt _ hL), concat_div_two_limbs (Nat.mod_lt _ hL), Nat.mod_add_mod]

theorem chainNeg_eq {e x : Nat} (hx : x < 2 ^ Config.width e) :
    chainNeg e x = (2 ^ Config.width e - x) % 2 ^ Config.width e := by
  have hone := Nat.one_lt_two_pow (Config.width_pos e).ne'
  have hinner : 2 ^ Config.width e - 1 - x + 1 = 2 ^ Config.width e - x := by omega
  rw [chainNeg, limbNot_eq hx, carryChain_eq (by omega) hone, hinner]

theorem chainSub_eq {e x y : Nat} (hx : x < 2 ^ Config.width e) (hy : y < 2 ^ Config.width e) :
    chainSub e x y = (x + (2 ^ Config.width e - y)) % 2 ^ Config.width e := by
  rw [chainSub, chainNeg_eq hy, carryChain_eq hx (Nat.mod_lt _ (Nat.two_pow_pos _)), Nat.add_mod_mod]

/-- Settles O46: the chain's value is R101's, by induction on the width, and the chains of R104 and R105 follow. -/
theorem carryChainIsExactAddition : Obligations.CarryChainIsExactAddition := by
  intro e a b ha hb
  have hone := Nat.one_lt_two_pow (Config.width_pos e).ne'
  refine ⟨?_, fun hcarry k hk => ?_, chainNeg_eq hb, chainSub_eq ha hb⟩
  · rw [carryChain_eq ha hb, add_div_eq_ite ha hb]
  · rw [carryChain_eq ha hb] at hcarry ⊢
    rw [carryChain_eq (Nat.mod_lt _ (Nat.two_pow_pos _)) (hk.trans_lt hone)]
    exact no_second_carry ha hb hk hcarry

end Sys2Proof.Machine
end

section
/-! The adder's commands (spec/41_adder.md R102 to R106): NEG and SUB are negation and subtraction modulo `2 ^ N`, each
command keeps its rule by the rule's shape and the value of its answer, and the laws are those of addition modulo
`2 ^ N`. -/

namespace Sys2Proof.Machine

open Sys2Proof.Claims

/-! ## Values -/

section
variable {n : Nat} (x y : BitVec n)

theorem negate_eq_neg : negate x = -x := (BitVec.neg_eq_not_add x).symm

theorem difference_eq_sub : difference x y = x - y := by
  rw [difference, negate_eq_neg, sum, BitVec.sub_eq_add_neg]

theorem sum_comm : sum x y = sum y x := BitVec.add_comm x y

theorem sum_assoc (z : BitVec n) : sum (sum x y) z = sum x (sum y z) := BitVec.add_assoc x y z

theorem difference_sum_cancel : difference (sum x y) y = x := by
  rw [difference_eq_sub, sum, BitVec.add_sub_cancel]

theorem sum_eq_ofNat : sum x y = BitVec.ofNat n (x.toNat + y.toNat) := by
  simp [sum, BitVec.ofNat_add]

theorem difference_eq_ofNat :
    difference x y
      = BitVec.ofNat n (if y.toNat ≤ x.toNat then x.toNat - y.toNat else x.toNat + 2 ^ n - y.toNat) := by
  rw [difference_eq_sub]
  apply eq_ofNat_of_toNat_eq
  split_ifs with hle
  · exact BitVec.toNat_sub_of_le hle
  · rw [BitVec.toNat_sub, Nat.mod_eq_of_lt (by omega)]
    omega

theorem negate_eq_ofNat : negate x = BitVec.ofNat n (if x.toNat = 0 then 0 else 2 ^ n - x.toNat) := by
  rw [negate_eq_neg]
  apply eq_ofNat_of_toNat_eq
  rw [BitVec.toNat_neg]
  split_ifs with hzero
  · rw [hzero, Nat.sub_zero, Nat.mod_self]
  · exact Nat.mod_eq_of_lt (by omega)

end

/-! ## The commands -/

/-- Settles O29: R0 gets the sum of the operands' values. -/
theorem addCommand : Obligations.AddCommand :=
  twoOperandRule_of_finish (encodes_of_opcodeForm (o := 0x10) rfl) fun _ _ s x y =>
    finish_r0_eq_toR0 s (sum_eq_ofNat x y)

/-- The next state of ADDC, which writes R0 and CF. -/
theorem finish_sum_carryOut (s : State) (x y : BitVec s.width) :
    s.finish { r0 := some (sum x y), cf := some (carryOut x y) } =
      { s with
        r0 := some (BitVec.ofNat s.width (x.toNat + y.toNat))
        cf := some (decide (x.toNat + y.toNat ≥ 2 ^ s.width))
        code := .ok } := by
  rw [sum_eq_ofNat]
  exact finish_of_code_ok s rfl

/-- Settles O30: R0 gets the sum and CF the carry-out; the two chains of R103's corner case are R101's values. -/
theorem addcCommand : Obligations.AddcCommand := by
  refine ⟨twoOperandRule_of_finish (encodes_of_opcodeForm (o := 0x11) rfl) fun _ _ s x y => finish_sum_carryOut s x y,
    fun e => ?_⟩
  have hone := Nat.one_lt_two_pow (Config.width_pos e).ne'
  have hones : 2 ^ Config.width e - 1 < 2 ^ Config.width e := by omega
  refine ⟨?_, ?_⟩
  · rw [carryChain_eq hones (by omega), Nat.add_zero, Nat.mod_eq_of_lt hones, Nat.div_eq_of_lt hones]
  · rw [carryChain_eq hones hone, Nat.sub_add_cancel hone.le, Nat.mod_self, Nat.div_self (by omega)]

/-- Settles O31: R0 gets the difference, with `2 ^ N` added where it would be negative. -/
theorem subCommand : Obligations.SubCommand :=
  twoOperandRule_of_finish (encodes_of_opcodeForm (o := 0x12) rfl) fun _ _ s x y =>
    finish_r0_eq_toR0 s (difference_eq_ofNat x y)

/-- The inner addition of a negation, `2 ^ N - 1 - x + 1`, reaches `2 ^ N` only from 0. -/
theorem carry_of_negation {e x : Nat} (hx : x < 2 ^ Config.width e) :
    (carryChain e (2 ^ Config.width e - 1 - x) 1).2 = if x = 0 then 1 else 0 := by
  have hone := Nat.one_lt_two_pow (Config.width_pos e).ne'
  have hcomplement : 2 ^ Config.width e - 1 - x < 2 ^ Config.width e := by omega
  rw [carryChain_eq hcomplement hone, add_div_eq_ite hcomplement hone]
  exact if_congr (by omega) rfl rfl

/-- Settles O32: R0 gets the negation, and NEG's opcode is one of R68's four. -/
theorem negCommand : Obligations.NegCommand :=
  ⟨oneOperandRule_of_finish (encodes_of_opcodeForm (o := 0x13) rfl) (by decide) fun _ s x =>
    finish_r0_eq_toR0 s (negate_eq_ofNat x), fun _ _ hx => carry_of_negation hx⟩

/-! ## Laws (R106) -/

section
variable {s : State} {a : ASel} {b : BSel} {x y : BitVec s.width}

theorem exec_neg (hA : s.opA a = some x) : exec (.neg a) s = .next (s.finish { r0 := some (negate x) }) :=
  exec_of_operands hA rfl

theorem exec_add (hA : s.opA a = some x) (hB : s.opB b = some y) :
    exec (.add a b) s = .next (s.finish { r0 := some (sum x y) }) :=
  exec_of_operands hA hB

theorem exec_sub (hA : s.opA a = some x) (hB : s.opB b = some y) :
    exec (.sub a b) s = .next (s.finish { r0 := some (difference x y) }) :=
  exec_of_operands hA hB

end

/-- ADD and ADDC write the same R0, and neither writes it when an operand is missing. -/
theorem answer_add_r0 (s : State) (a : ASel) (b : BSel) : (s.answer (.add a b)).r0 = (s.answer (.addc a b)).r0 := by
  simp only [State.answer, Instr.asel, State.secondOperand, Instr.bsel]
  rcases s.opA a with _ | x <;> rcases s.opB b with _ | y <;> rfl

/-- Two valid R0 of one value read the same (R28). -/
theorem view_r0_congr {n : Nat} {v w : BitVec n} (h : v = w) : (some v).map BitVec.toNat = (some w).map BitVec.toNat :=
  congrArg _ (congrArg some h)

/-- Settles O39: each side of a law runs to its sum or difference, and the two are equal modulo `2 ^ N`. -/
theorem additiveLaws : Obligations.AdditiveLaws := by
  refine ⟨fun s => ?_, fun s => ?_, fun s => ?_, fun a b s => ?_, fun s => ?_⟩
  · exact ⟨_, _, exec_add rfl rfl, exec_sub rfl rfl, view_r0_congr (difference_sum_cancel s.ports.a s.ports.b)⟩
  · exact ⟨_, _, exec_add rfl rfl, exec_add rfl rfl, view_r0_congr (sum_comm s.ports.a s.ports.b)⟩
  · have hassoc : sum (sum s.ports.a s.ports.b) s.scalarOperand = sum (sum s.ports.b s.scalarOperand) s.ports.a := by
      rw [sum_assoc, sum_comm]
    exact ⟨_, _, _, _, exec_add rfl rfl, exec_add rfl rfl, exec_add rfl rfl, exec_add rfl rfl, view_r0_congr hassoc⟩
  · exact ⟨_, _, exec_eq_finish _ s, exec_eq_finish _ s,
      congrArg (fun r => (r.or s.r0).map BitVec.toNat) (answer_add_r0 s a b)⟩
  · exact ⟨_, _, _, exec_neg rfl, exec_add rfl rfl, exec_sub rfl rfl,
      view_r0_congr (sum_comm (negate s.ports.b) s.ports.a)⟩

end Sys2Proof.Machine
end

section
/-! The shifter's commands (spec/42_shifter.md R115, R121 to R125): a shift by its value, each command by its rule's
shape and the value of its answer, and the laws of a left shift followed by a right shift. -/

namespace Sys2Proof.Machine

open Sys2Proof.Claims

/-! ## Values (R115) -/

section
variable {n : Nat} (x : BitVec n) (amount : Nat)

theorem shiftLeft_eq_ofNat :
    shiftLeft x amount = BitVec.ofNat n (if amount < n then x.toNat * 2 ^ amount else 0) := by
  unfold shiftLeft
  split
  · apply BitVec.eq_of_toNat_eq
    rw [BitVec.toNat_shiftLeft, Nat.shiftLeft_eq, BitVec.toNat_ofNat]
  · rfl

theorem shiftRight_eq_ofNat :
    shiftRight x amount = BitVec.ofNat n (if amount < n then x.toNat / 2 ^ amount else 0) := by
  unfold shiftRight
  split
  · apply eq_ofNat_of_toNat_eq
    rw [BitVec.toNat_ushiftRight, Nat.shiftRight_eq_div_pow]
  · rfl

end

section
variable {n : Nat} (x : BitVec n) {amount : Nat}

theorem shiftLeft_zero (hn : 0 < n) : shiftLeft x 0 = x := by
  rw [shiftLeft, if_pos hn, BitVec.shiftLeft_zero]

theorem shiftRight_zero (hn : 0 < n) : shiftRight x 0 = x := by
  rw [shiftRight, if_pos hn, BitVec.ushiftRight_zero]

/-- R125: shifting left and back keeps the low `n - amount` bits. -/
theorem shiftRight_shiftLeft_toNat (h : amount < n) :
    (shiftRight (shiftLeft x amount) amount).toNat = x.toNat % 2 ^ (n - amount) := by
  have hsplit : 2 ^ n = 2 ^ (n - amount) * 2 ^ amount := by rw [← Nat.pow_add, Nat.sub_add_cancel h.le]
  rw [shiftRight, if_pos h, shiftLeft, if_pos h, BitVec.toNat_ushiftRight, BitVec.toNat_shiftLeft, Nat.shiftLeft_eq,
    Nat.shiftRight_eq_div_pow, hsplit, Nat.mul_mod_mul_right, Nat.mul_div_cancel _ (Nat.two_pow_pos amount)]

end

/-! ## The commands -/

/-- Settles O33: R0 gets the operand shifted by the S port, and both opcodes are among R68's four. -/
theorem scalarShiftCommands : Obligations.ScalarShiftCommands :=
  ⟨oneOperandRule_of_finish (encodes_of_opcodeForm (o := 0x18) rfl) (by decide) fun _ s x =>
      finish_r0_eq_toR0 s (shiftLeft_eq_ofNat x _),
    oneOperandRule_of_finish (encodes_of_opcodeForm (o := 0x19) rfl) (by decide) fun _ s x =>
      finish_r0_eq_toR0 s (shiftRight_eq_ofNat x _)⟩

/-- Settles O34: R0 gets the first operand shifted by the value of the second. -/
theorem wideShiftCommands : Obligations.WideShiftCommands :=
  ⟨twoOperandRule_of_finish (encodes_of_opcodeForm (o := 0x1A) rfl) fun _ _ s x y =>
      finish_r0_eq_toR0 s (shiftLeft_eq_ofNat x y.toNat),
    twoOperandRule_of_finish (encodes_of_opcodeForm (o := 0x1B) rfl) fun _ _ s x y =>
      finish_r0_eq_toR0 s (shiftRight_eq_ofNat x y.toNat)⟩

/-! ## Laws (R125) -/

section
variable {s : State} {a : ASel} {x : BitVec s.width} (hA : s.opA a = some x)
include hA

theorem exec_shl : exec (.shl a) s = .next (s.finish { r0 := some (shiftLeft x s.ports.s.toNat) }) :=
  exec_of_operands hA rfl

theorem exec_lsr : exec (.lsr a) s = .next (s.finish { r0 := some (shiftRight x s.ports.s.toNat) }) :=
  exec_of_operands hA rfl

/-- R125 for a full shift: nothing of the operand is left. -/
theorem exec_shift_of_width_le (hs : s.width ≤ s.ports.s.toNat) :
    exec (.shl a) s = .next (toR0 s 0) ∧ exec (.lsr a) s = .next (toR0 s 0) := by
  rw [exec_shl hA, exec_lsr hA, finish_r0_eq_toR0 s (shiftLeft_eq_ofNat x _),
    finish_r0_eq_toR0 s (shiftRight_eq_ofNat x _), if_neg hs.not_gt, if_neg hs.not_gt]
  exact ⟨rfl, rfl⟩

/-- R125 for the amount 0: the operand as it is. -/
theorem exec_shift_of_zero (hs : s.ports.s = 0) :
    exec (.shl a) s = .next { s with r0 := some x, code := .ok }
      ∧ exec (.lsr a) s = .next { s with r0 := some x, code := .ok } := by
  have hzero : s.ports.s.toNat = 0 := by rw [hs]; rfl
  have hpos : 0 < s.width := Config.width_pos s.wexp
  rw [exec_shl hA, exec_lsr hA, hzero, shiftLeft_zero x hpos, shiftRight_zero x hpos]
  exact ⟨congrArg _ (finish_of_code_ok s rfl), congrArg _ (finish_of_code_ok s rfl)⟩

end

/-- Settles O40: SHL writes R0 and leaves the S port, so LSR R0 shifts back by the same amount. -/
theorem shiftLaws : Obligations.ShiftLaws := by
  intro a s x hA
  rw [← opA_eq_operandA] at hA
  refine ⟨fun hs => ?_, exec_shift_of_width_le hA, exec_shift_of_zero hA⟩
  exact ⟨_, _, exec_shl hA, exec_lsr rfl, congrArg some (shiftRight_shiftLeft_toNat x hs)⟩

end Sys2Proof.Machine
end

section
/-! The shifter's recursive form (spec/42_shifter.md R116 to R118): a field across a boundary is the overlap of two
shifts, so the limbs of a shifted value are shifts of the limbs; then induction on the width exponent. -/

namespace Sys2Proof.Machine

/-! ## The boundary between two parts of a value -/

/-- Shifting right by less than the low part's width takes the bits from the low part alone. -/
theorem concat_div_two_pow {w s : Nat} (hs : s ≤ w) (hi lo : Nat) :
    concat w hi lo / 2 ^ s = concat (w - s) hi (lo / 2 ^ s) := by
  have hsplit : hi * 2 ^ w = 2 ^ s * (hi * 2 ^ (w - s)) := by
    rw [← pow_mul_pow_sub 2 hs, Nat.mul_left_comm]
  rw [concat, concat, hsplit, Nat.mul_add_div (Nat.two_pow_pos s)]

/-- A part above a part that fits its width is the OR of the two. -/
theorem or_mul_two_pow_eq_concat {w hi lo : Nat} (hlo : lo < 2 ^ w) : lo ||| hi * 2 ^ w = concat w hi lo := by
  rw [Nat.or_comm, ← Nat.shiftLeft_eq, ← Nat.shiftLeft_add_eq_or_of_lt hlo, Nat.shiftLeft_eq, concat]

/-- The bits that stay in the low part and those that enter it from the high part make up the field between them. -/
theorem shiftValue_right_or_left {w s lo : Nat} (hs : s ≤ w) (hlo : lo < 2 ^ w) (hi : Nat) :
    shiftValue .right w lo s ||| shiftValue .left w hi (w - s) = field s w (concat w hi lo) := by
  have hsplit : 2 ^ w = 2 ^ s * 2 ^ (w - s) := (pow_mul_pow_sub 2 hs).symm
  have hkept : lo / 2 ^ s < 2 ^ (w - s) := Nat.div_lt_of_lt_mul (hsplit ▸ hlo)
  calc lo / 2 ^ s ||| hi * 2 ^ (w - s) % 2 ^ w
      = concat (w - s) (hi % 2 ^ s) (lo / 2 ^ s) := by
        rw [hsplit, Nat.mul_mod_mul_right, or_mul_two_pow_eq_concat hkept]
    _ = concat (w - s) hi (lo / 2 ^ s) % 2 ^ w := by
        rw [hsplit, Nat.mul_comm (2 ^ s), Nat.mod_mul, concat_mod hkept, concat_div hkept, concat, Nat.add_comm,
          Nat.mul_comm]
    _ = field s w (concat w hi lo) := by rw [field, concat_div_two_pow hs]

/-- The same field, reached by a left shift of the high part. -/
theorem shiftValue_left_or_right {w s lo : Nat} (hs : s ≤ w) (hlo : lo < 2 ^ w) (hi : Nat) :
    shiftValue .left w hi s ||| shiftValue .right w lo (w - s) = field (w - s) w (concat w hi lo) := by
  have h := shiftValue_right_or_left (Nat.sub_le w s) hlo hi
  rwa [Nat.sub_sub_self hs, Nat.or_comm] at h

/-! ## Shifts of a value -/

/-- A shift in two steps is a shift by the sum of the amounts. -/
theorem shiftValue_add (d : Direction) (w x s t : Nat) :
    shiftValue d w (shiftValue d w x s) t = shiftValue d w x (s + t) := by
  cases d with
  | left => simp only [shiftValue, trunc, Nat.mod_mul_mod, Nat.pow_add, Nat.mul_assoc]
  | right => simp only [shiftValue, Nat.div_div_eq_div_mul, Nat.pow_add]

theorem shiftValue_lt {w x : Nat} (d : Direction) (hx : x < 2 ^ w) (s : Nat) : shiftValue d w x s < 2 ^ w := by
  cases d with
  | left => exact trunc_lt w _
  | right => exact (Nat.div_le_self x _).trans_lt hx

theorem giver_lt (d : Direction) (h x : Nat) : giver d h x < 2 ^ h := by
  cases d with
  | left => exact limbLo_lt h x
  | right => exact limbHi_lt h x

theorem taker_lt (d : Direction) (h x : Nat) : taker d h x < 2 ^ h := by
  cases d with
  | left => exact limbHi_lt h x
  | right => exact limbLo_lt h x

/-! ## Fields of a shifted value -/

theorem field_mul_two_pow (lo w x s : Nat) : field (lo + s) w (x * 2 ^ s) = field lo w x := by
  rw [field, Nat.pow_add, Nat.mul_div_mul_right _ _ (Nat.two_pow_pos s), field]

theorem field_div_two_pow (lo w x s : Nat) : field lo w (x / 2 ^ s) = field (s + lo) w x := by
  rw [field, Nat.div_div_eq_div_mul, ← Nat.pow_add, field]

/-- Reducing to two limbs keeps the two lowest limbs. -/
theorem trunc_two_limbs (h v : Nat) : trunc (2 * h) v = concat h (limbHi h v) (limbLo h v) := by
  rw [trunc, Nat.two_mul, Nat.pow_add, Nat.mod_mul, limbLo_eq, concat, Nat.add_comm, Nat.mul_comm]
  rfl

/-! ## One level of the recursion -/

section
variable {h x s : Nat} (hx : x < 2 ^ (2 * h))
include hx

/-- A shift by at most a limb: the giver keeps its own shifted bits, and its other bits enter the taker. -/
theorem joinLimbs_shifted_of_le (d : Direction) (hs : s ≤ h) :
    joinLimbs d h (shiftValue d h (giver d h x) s)
        (shiftValue d h (taker d h x) s ||| shiftValue d.opposite h (giver d h x) (h - s))
      = shiftValue d (2 * h) x s := by
  cases d with
  | left =>
    have hhigh : field (h - s) h x = limbHi h (x * 2 ^ s) := by
      rw [← field_mul_two_pow, Nat.sub_add_cancel hs, limbHi]
    have hlow : trunc h (limbLo h x * 2 ^ s) = limbLo h (x * 2 ^ s) := by
      rw [trunc, limbLo_eq, limbLo_eq, Nat.mod_mul_mod]
    simp only [joinLimbs, giver, taker, Direction.opposite]
    rw [shiftValue_left_or_right hs (limbLo_lt h x), concat_limbs hx, hhigh]
    simp only [shiftValue]
    rw [hlow, trunc_two_limbs]
  | right =>
    have hresult : x / 2 ^ s < 2 ^ (2 * h) := shiftValue_lt .right hx s
    have hhigh : limbHi h x / 2 ^ s = limbHi h (x / 2 ^ s) := by
      rw [limbHi_eq hx, limbHi_eq hresult, Nat.div_right_comm]
    have hlow : field s h x = limbLo h (x / 2 ^ s) := (field_div_two_pow 0 h x s).symm
    simp only [joinLimbs, giver, taker, Direction.opposite]
    rw [shiftValue_right_or_left hs (limbLo_lt h x), concat_limbs hx, hlow]
    simp only [shiftValue]
    rw [hhigh, concat_limbs hresult]

/-- A shift by a limb or more: the taker gets the giver's bits, and the giver is 0. -/
theorem joinLimbs_shifted_of_ge (d : Direction) (hs : h ≤ s) :
    joinLimbs d h 0 (shiftValue d h (giver d h x) (s - h)) = shiftValue d (2 * h) x s := by
  have hsplit : 2 ^ s = 2 ^ (s - h) * 2 ^ h := (pow_sub_mul_pow 2 hs).symm
  cases d with
  | left =>
    simp only [joinLimbs, giver, shiftValue, trunc, concat]
    rw [limbLo_eq, Nat.mod_mul_mod, Nat.add_zero, hsplit, ← Nat.mul_assoc, Nat.two_mul, Nat.pow_add,
      Nat.mul_mod_mul_right]
  | right =>
    simp only [joinLimbs, giver, shiftValue, concat]
    rw [limbHi_eq hx, Nat.zero_mul, Nat.zero_add, hsplit, Nat.div_div_eq_div_mul, Nat.mul_comm]

end

/-! ## The recursion -/

/-- R118: below the width every shift of the recursion is below its limb's width, so it answers, with R115's value. -/
theorem limbShiftBelow_eq {e x s : Nat} (d : Direction) (hx : x < 2 ^ Config.width e) (hs : s < Config.width e) :
    limbShiftBelow e d x s = some (shiftValue d (Config.width e) x s) := by
  induction e generalizing d x s with
  | zero => exact if_pos hs
  | succ e ih =>
    have hone : 1 < Config.width e := Nat.lt_of_lt_of_le (by decide) (Config.le_width e)
    have hgiver := giver_lt d (Config.width e) x
    rw [Config.width_succ] at hx hs ⊢
    rw [limbShiftBelow]
    by_cases hlow : s < Config.width e
    · have honce := ih d.opposite hgiver (s := Config.width e - s - 1) (by omega)
      have hcrossing := ih d.opposite (shiftValue_lt d.opposite hgiver (Config.width e - s - 1)) hone
      have hsteps : Config.width e - s - 1 + 1 = Config.width e - s := by omega
      rw [shiftValue_add, hsteps] at hcrossing
      simp only [if_pos hlow, ih d hgiver hlow, honce, hcrossing, ih d (taker_lt d _ x) hlow, Option.bind_eq_bind,
        Option.bind_some, joinLimbs_shifted_of_le hx d hlow.le]
    · rw [if_neg hlow, Config.width_succ, if_pos hs, ih d hgiver (by omega),
        ← joinLimbs_shifted_of_ge hx d (Nat.le_of_not_lt hlow)]
      rfl

theorem limbShift_eq {e x : Nat} (d : Direction) (hx : x < 2 ^ Config.width e) (s : Nat) :
    limbShift e d x s = some (if s < Config.width e then shiftValue d (Config.width e) x s else 0) := by
  unfold limbShift
  split
  next hs => exact limbShiftBelow_eq d hx hs
  next => rfl

/-- Settles O47: the checked recursion answers at every amount, and its value is the direction's shift. -/
theorem limbShiftIsExactAndNeverFullWidth : Obligations.LimbShiftIsExactAndNeverFullWidth :=
  fun _ _ s hx => ⟨limbShift_eq .left hx s, limbShift_eq .right hx s⟩

end Sys2Proof.Machine
end

section
/-! The shifter's word-array form and the wide amount (spec/42_shifter.md R119, R120): each word of the result is the
word of the shifted value, and an amount with no word above the lowest is its lowest word. -/

namespace Sys2Proof.Machine

/-! ## The words of a value -/

/-- The words from the least significant up are the value (R47). -/
theorem sumWords_word (k x : Nat) : sumWords k (word x) = x % 2 ^ (64 * k) := by
  induction k with
  | zero => rw [Nat.mul_zero, Nat.pow_zero, Nat.mod_one]; rfl
  | succ k ih =>
    have hbase : wordBase ^ k = 2 ^ (64 * k) := (Nat.pow_mul 2 64 k).symm
    rw [sumWords] at ih ⊢
    rw [List.range_succ, List.map_append, fromWords_append, ih, List.length_map, List.length_range, hbase,
      Nat.mul_succ, Nat.pow_add, Nat.mod_mul]
    rfl

theorem word_eq_zero_of_le {k x j : Nat} (hx : x < 2 ^ (64 * k)) (hj : k ≤ j) : word x j = 0 := by
  have hbelow : x < 2 ^ (64 * j) := hx.trans_le (Nat.pow_le_pow_right (by decide) (Nat.mul_le_mul_left 64 hj))
  rw [word, field, Nat.div_eq_of_lt hbelow, Nat.zero_mod]

theorem arrayWord_eq_word {k x : Nat} (hx : x < 2 ^ (64 * k)) (j : Nat) : arrayWord k x j = word x j := by
  unfold arrayWord
  split
  next => rfl
  next hj => exact (word_eq_zero_of_le hx (Nat.le_of_not_lt hj)).symm

/-- The words below the array's start are the zeros that a left shift by whole words brings in. -/
theorem arrayWordBelow_eq_word {k x : Nat} (hx : x < 2 ^ (64 * k)) (j q : Nat) :
    arrayWordBelow k x j q = word (x * 2 ^ (64 * q)) j := by
  unfold arrayWordBelow
  split
  next hq =>
    have hplace : 64 * j = 64 * (j - q) + 64 * q := by omega
    rw [arrayWord_eq_word hx, word, word, hplace, field_mul_two_pow]
  next hq =>
    have hplace : 64 * q = (64 * (q - j - 1) + 64) + 64 * j := by omega
    rw [word, field, hplace, Nat.pow_add, ← Nat.mul_assoc, Nat.mul_div_cancel _ (Nat.two_pow_pos _), Nat.pow_add,
      ← Nat.mul_assoc, Nat.mul_mod_left]

/-- A field is read from the bits it lies in. -/
theorem field_trunc {b w m : Nat} (h : b + w ≤ m) (x : Nat) : field b w (trunc m x) = field b w x := by
  have hsplit : 2 ^ m = 2 ^ b * 2 ^ (m - b) := (pow_mul_pow_sub 2 (by omega)).symm
  rw [field, trunc, hsplit, Nat.mod_mul_right_div_self, Nat.mod_mod_of_dvd _ (pow_dvd_pow 2 (by omega)), field]

theorem concat_words (x j : Nat) : concat 64 (word x (j + 1)) (word x j) = trunc (2 * 64) (x / 2 ^ (64 * j)) := by
  have hhigh : limbHi 64 (x / 2 ^ (64 * j)) = word x (j + 1) := field_div_two_pow 64 64 x (64 * j)
  have hlow : limbLo 64 (x / 2 ^ (64 * j)) = word x j := field_div_two_pow 0 64 x (64 * j)
  rw [trunc_two_limbs, hhigh, hlow]

/-- A word-sized field that starts in word `j` lies in words `j` and `j + 1`. -/
theorem field_concat_words {b : Nat} (hb : b ≤ 64) (x j : Nat) :
    field b 64 (concat 64 (word x (j + 1)) (word x j)) = field (64 * j + b) 64 x := by
  rw [concat_words, field_trunc (by omega), field_div_two_pow]

/-! ## Double-word shifts (R119) -/

theorem nativeShift64_of_lt {b : Nat} (d : Direction) (hb : b < 64) (x : Nat) :
    nativeShift64 d x b = some (shiftValue d 64 x b) := if_pos hb

section
variable {b hi lo : Nat} (hb : b < 64) (hlo : lo < 2 ^ 64)
include hb hlo

theorem shrd_eq_field : shrd lo hi b = some (field b 64 (concat 64 hi lo)) := by
  unfold shrd
  split
  next hzero =>
    rw [hzero, field, Nat.pow_zero, Nat.div_one, concat_mod hlo]
  next hnonzero =>
    rw [nativeShift64_of_lt .right hb, nativeShift64_of_lt .left (by omega), ← shiftValue_right_or_left hb.le hlo]
    rfl

theorem shld_eq_field (hhi : hi < 2 ^ 64) : shld hi lo b = some (field (64 - b) 64 (concat 64 hi lo)) := by
  unfold shld
  split
  next hzero =>
    rw [hzero, Nat.sub_zero, field, concat_div hlo, Nat.mod_eq_of_lt hhi]
  next hnonzero =>
    rw [nativeShift64_of_lt .left hb, nativeShift64_of_lt .right (by omega), ← shiftValue_left_or_right hb.le hlo]
    rfl

end

/-! ## The word-array form -/

section
variable {k x : Nat} (hx : x < 2 ^ (64 * k)) (j s : Nat)
include hx

/-- Word `j` of the right shift. -/
theorem shrd_arrayWords :
    shrd (arrayWord k x (j + s / 64)) (arrayWord k x (j + s / 64 + 1)) (s % 64) = some (word (x / 2 ^ s) j) := by
  have hplace : 64 * (j + s / 64) + s % 64 = s + 64 * j := by omega
  have hb : s % 64 < 64 := Nat.mod_lt s (by decide)
  rw [arrayWord_eq_word hx, arrayWord_eq_word hx, shrd_eq_field hb (word_lt x _), field_concat_words hb.le, hplace,
    word, field_div_two_pow]

/-- Word `j` of the left shift. -/
theorem shld_arrayWords :
    shld (arrayWordBelow k x j (s / 64)) (arrayWordBelow k x j (s / 64 + 1)) (s % 64) = some (word (x * 2 ^ s) j) := by
  have hb : s % 64 < 64 := Nat.mod_lt s (by decide)
  have hamount : 64 * (s / 64 + 1) = s + (64 - s % 64) := by omega
  have hnext : word (x * 2 ^ (64 * (s / 64))) j = word (x * 2 ^ (64 * (s / 64 + 1))) (j + 1) := by
    rw [word, word, Nat.mul_succ, Nat.mul_succ, Nat.pow_add, ← Nat.mul_assoc, field_mul_two_pow]
  rw [arrayWordBelow_eq_word hx, arrayWordBelow_eq_word hx, hnext, shld_eq_field hb (word_lt _ _) (word_lt _ _),
    field_concat_words (Nat.sub_le 64 _), hamount, Nat.pow_add, ← Nat.mul_assoc, field_mul_two_pow, word]

end

/-- A list of answers that all are values is the list of the values. -/
theorem mapM_range_eq_some {f : Nat → Option Nat} {g : Nat → Nat} (h : ∀ j, f j = some (g j)) (k : Nat) :
    (List.range k).mapM f = some ((List.range k).map g) := by
  rw [funext h]
  exact List.mapM_pure

section
variable {k x : Nat} (hx : x < 2 ^ (64 * k)) (s : Nat)
include hx

theorem shlWords_eq : shlWords k x s = some (if s < 64 * k then x * 2 ^ s % 2 ^ (64 * k) else 0) := by
  unfold shlWords
  by_cases hs : s < 64 * k
  · rw [if_neg hs.not_ge, if_pos hs, mapM_range_eq_some fun j => shld_arrayWords hx j s]
    exact congrArg some (sumWords_word k _)
  · rw [if_pos (Nat.le_of_not_lt hs), if_neg hs]

theorem lsrWords_eq : lsrWords k x s = some (if s < 64 * k then x / 2 ^ s else 0) := by
  unfold lsrWords
  by_cases hs : s < 64 * k
  · have hresult : sumWords k (word (x / 2 ^ s)) = x / 2 ^ s :=
      (sumWords_word k _).trans (Nat.mod_eq_of_lt (shiftValue_lt .right hx s))
    rw [if_neg hs.not_ge, if_pos hs, mapM_range_eq_some fun j => shrd_arrayWords hx j s]
    exact congrArg some hresult
  · rw [if_pos (Nat.le_of_not_lt hs), if_neg hs]

end

/-- Settles O48: below the width every word comes from a double-word shift by less than 64. -/
theorem wordArrayShiftIsExact : Obligations.WordArrayShiftIsExact :=
  fun _ _ s hx => ⟨shlWords_eq hx s, lsrWords_eq hx s⟩

/-! ## The wide amount (R120) -/

theorem word_zero (x : Nat) : word x 0 = x % 2 ^ 64 := by
  rw [word, field, Nat.mul_zero, Nat.pow_zero, Nat.div_one]

theorem wideAmountOk_iff_words (k b : Nat) : wideAmountOk k b = true ↔ ∀ j, 0 < j → j < k → word b j = 0 := by
  simp only [wideAmountOk, List.all_eq_true, List.mem_range, Bool.or_eq_true, beq_iff_eq, or_iff_not_imp_left,
    Nat.pos_iff_ne_zero]
  exact forall_congr' fun _ => imp.swap

theorem lt_of_top_word_zero {k b : Nat} (hb : b < 2 ^ (64 * (k + 1))) (h : word b k = 0) : b < 2 ^ (64 * k) := by
  have htop : b / 2 ^ (64 * k) < 2 ^ 64 := by
    refine Nat.div_lt_of_lt_mul ?_
    rwa [← Nat.pow_add, ← Nat.mul_succ]
  rw [word, field, Nat.mod_eq_of_lt htop] at h
  exact Nat.lt_of_div_eq_zero (Nat.two_pow_pos _) h

/-- A value whose words above the lowest are 0 is below `2 ^ 64`. -/
theorem lt_of_high_words_zero {k b : Nat} (hb : b < 2 ^ (64 * k)) (h : ∀ j, 0 < j → j < k → word b j = 0) :
    b < 2 ^ 64 := by
  induction k with
  | zero => exact hb.trans (by decide)
  | succ k ih =>
    rcases Nat.eq_zero_or_pos k with rfl | hk
    · exact hb
    · exact ih (lt_of_top_word_zero hb (h k hk k.lt_succ_self)) fun j hj hjk => h j hj (hjk.trans k.lt_succ_self)

theorem wideAmountOk_iff {k b : Nat} (hb : b < 2 ^ (64 * k)) : wideAmountOk k b = true ↔ b < 2 ^ 64 := by
  rw [wideAmountOk_iff_words]
  refine ⟨lt_of_high_words_zero hb, fun hlt j hj _ => ?_⟩
  exact word_eq_zero_of_le (k := 1) hlt hj

theorem wideShiftByWord_eq {n k b : Nat} (d : Direction) (hn : n < 2 ^ 64) (hb : b < 2 ^ (64 * k)) (x : Nat) :
    wideShiftByWord d n k x b = if b < n then shiftValue d n x b else 0 := by
  unfold wideShiftByWord
  by_cases hlow : b < 2 ^ 64
  · have hword : word b 0 = b := (word_zero b).trans (Nat.mod_eq_of_lt hlow)
    rw [(wideAmountOk_iff hb).mpr hlow, hword, Bool.true_and]
    exact if_congr decide_eq_true_iff rfl rfl
  · have hnot : wideAmountOk k b = false := Bool.eq_false_of_not_eq_true (mt (wideAmountOk_iff hb).mp hlow)
    rw [hnot, Bool.false_and, if_neg (by decide), if_neg (by omega)]

/-- Settles O49: an amount with a word that is not 0 above its lowest is `2 ^ 64` or more, which is more than N. -/
theorem wideShiftByLowestWordIsByValue : Obligations.WideShiftByLowestWordIsByValue := by
  intro e x b hwidth _ hb
  rw [Config.width_eq_words] at hb
  exact ⟨wideShiftByWord_eq .left hwidth hb x, wideShiftByWord_eq .right hwidth hb x⟩

end Sys2Proof.Machine
end

section
/-! The multiplier's commands (spec/43_multiplier.md R133, R134, R138): each by its rule's shape, and the laws of the
product's two halves. -/

namespace Sys2Proof.Machine

open Sys2Proof.Claims

/-! ## The commands -/

/-- Settles O35: R0 gets the product of the operands' values. -/
theorem mulCommand : Obligations.MulCommand :=
  twoOperandRule_of_finish (encodes_of_opcodeForm (o := 0x20) rfl) fun _ _ s _ _ => finish_r0_eq_toR0 s rfl

/-- Settles O36: R0 and R1 get the two halves of the product of the operands' values. -/
theorem mulfCommand : Obligations.MulfCommand :=
  twoOperandRule_of_finish (encodes_of_opcodeForm (o := 0x21) rfl) fun _ _ s _ _ => finish_of_code_ok s rfl

/-! ## Laws (R138) -/

section
variable {n : Nat} (x y : BitVec n)

theorem productLow_comm : productLow x y = productLow y x := by
  rw [productLow, Nat.mul_comm, productLow]

theorem productHigh_comm : productHigh x y = productHigh y x := by
  rw [productHigh, Nat.mul_comm, productHigh]

/-- The high half is exact: a product of two N-bit values has at most 2N bits. -/
theorem productHigh_toNat : (productHigh x y).toNat = x.toNat * y.toNat / 2 ^ n := by
  have hhigh : x.toNat * y.toNat / 2 ^ n < 2 ^ n := Nat.div_lt_of_lt_mul (Nat.mul_lt_mul'' x.isLt y.isLt)
  rw [productHigh, BitVec.toNat_ofNat, Nat.mod_eq_of_lt hhigh]

theorem productHigh_toNat_eq_zero_iff : (productHigh x y).toNat = 0 ↔ x.toNat * y.toNat < 2 ^ n := by
  rw [productHigh_toNat, Nat.div_eq_zero_iff_lt (Nat.two_pow_pos n)]

end

section
variable {s : State} {a : ASel} {b : BSel} {x y : BitVec s.width}

theorem exec_mul (hA : s.opA a = some x) (hB : s.opB b = some y) :
    exec (.mul a b) s = .next (s.finish { r0 := some (productLow x y) }) :=
  exec_of_operands hA hB

theorem exec_mulf (hA : s.opA a = some x) (hB : s.opB b = some y) :
    exec (.mulf a b) s = .next (s.finish { r0 := some (productLow x y), r1 := some (productHigh x y) }) :=
  exec_of_operands hA hB

end

/-- Settles O41: MUL and MULF write the same low half, both halves commute, and the high half is the product's quotient
by `2 ^ N`. -/
theorem multiplicationLaws : Obligations.MultiplicationLaws := by
  intro a b s x y hA hB
  rw [← opA_eq_operandA] at hA
  rw [← opB_eq_operandB] at hB
  refine ⟨_, _, exec_mul hA hB, exec_mulf hA hB, rfl, ?_, _, exec_mulf rfl rfl, ?_, ?_⟩
  · exact Option.some_inj.trans (productHigh_toNat_eq_zero_iff x y)
  · exact congrArg (fun v => some v.toNat) (productLow_comm y x)
  · exact congrArg (fun v => some v.toNat) (productHigh_comm y x)

end Sys2Proof.Machine
end

section
/-! The multiplier's two-limb forms (spec/43_multiplier.md R131, R132): the product of two values from the four products
of their limbs, then induction on the width. -/

namespace Sys2Proof.Machine

/-! ## The product in limbs -/

/-- R131's bound: a product of two values below `m` has room for two more of them. -/
theorem mul_add_add_lt {m a b c d : Nat} (ha : a < m) (hb : b < m) (hc : c < m) (hd : d < m) :
    a * b + c + d < m * m := by
  have hproduct : a * b ≤ (m - 1) * (m - 1) := Nat.mul_le_mul (Nat.le_pred_of_lt ha) (Nat.le_pred_of_lt hb)
  obtain ⟨p, rfl⟩ : ∃ p, m = p + 1 := ⟨m - 1, by omega⟩
  rw [Nat.add_sub_cancel] at hproduct
  linarith [Nat.le_of_lt_succ hc, Nat.le_of_lt_succ hd]

theorem fits_mul_add_add {h a b c d : Nat} (ha : a < 2 ^ h) (hb : b < 2 ^ h) (hc : c < 2 ^ h) (hd : d < 2 ^ h) :
    fits (2 * h) (a * b + c + d) = some (a * b + c + d) := by
  apply fits_of_lt
  rw [Nat.two_mul, Nat.pow_add]
  exact mul_add_add_lt ha hb hc hd

theorem fits_mul_add {h a b c : Nat} (ha : a < 2 ^ h) (hb : b < 2 ^ h) (hc : c < 2 ^ h) :
    fits (2 * h) (a * b + c) = some (a * b + c) := fits_mul_add_add ha hb hc (Nat.two_pow_pos h)

/-- What the middle limb has beyond its width belongs to the limb above. -/
theorem concat_concat_add_mul (h a b c d : Nat) :
    concat (2 * h) a (concat h (c * 2 ^ h + b) d) = concat (2 * h) (a + c) (concat h b d) := by
  simp only [concat, Nat.two_mul, Nat.pow_add]
  ring

section
variable {h x y : Nat} (hx : x < 2 ^ (2 * h)) (hy : y < 2 ^ (2 * h))
include hx hy

/-- The expansion of R131, with the high limb of the lowest product among the cross terms. -/
theorem mul_eq_concat_limbs :
    x * y = concat (2 * h) (limbHi h x * limbHi h y)
      (concat h (limbHi h x * limbLo h y + limbHi h (limbLo h x * limbLo h y) + limbLo h x * limbHi h y)
        (limbLo h (limbLo h x * limbLo h y))) := by
  have hlow : limbLo h x * limbLo h y < 2 ^ (2 * h) := by
    rw [Nat.two_mul, Nat.pow_add]
    exact Nat.mul_lt_mul'' (limbLo_lt h x) (limbLo_lt h y)
  have hsplit := concat_limbs hlow
  conv_lhs => rw [← concat_limbs hx, ← concat_limbs hy]
  simp only [concat, Nat.two_mul, Nat.pow_add] at hsplit ⊢
  linarith

/-- R131's dataflow: the two cross sums `u1` and `u2` regroup the cross terms. -/
theorem mul_eq_concat_crossSums {u1 u2 : Nat} (hlt1 : u1 < 2 ^ (2 * h)) (hlt2 : u2 < 2 ^ (2 * h))
    (h1 : limbHi h x * limbLo h y + limbHi h (limbLo h x * limbLo h y) = u1)
    (h2 : limbLo h x * limbHi h y + limbLo h u1 = u2) :
    x * y = concat (2 * h) (limbHi h x * limbHi h y + limbHi h u2 + limbHi h u1)
      (concat h (limbLo h u2) (limbLo h (limbLo h x * limbLo h y))) := by
  have hcross : u1 + limbLo h x * limbHi h y = (limbHi h u2 + limbHi h u1) * 2 ^ h + limbLo h u2 := by
    have hsplit1 := concat_limbs hlt1
    have hsplit2 := concat_limbs hlt2
    simp only [concat] at hsplit1 hsplit2
    linarith
  rw [mul_eq_concat_limbs hx hy, h1, hcross, concat_concat_add_mul, Nat.add_assoc]

/-- R132's dataflow: modulo the width the product of the high limbs vanishes. -/
theorem mul_mod_eq_concat :
    x * y % 2 ^ (2 * h) = concat h
      (trunc h (limbHi h (limbLo h x * limbLo h y)
        + trunc h (limbLo h x * limbHi h y % 2 ^ h + limbHi h x * limbLo h y % 2 ^ h)))
      (limbLo h (limbLo h x * limbLo h y)) := by
  rw [mul_eq_concat_limbs hx hy, concat, Nat.mul_add_mod_self_right, concat_mod_two_limbs (limbLo_lt h _)]
  simp only [trunc, Nat.add_mod_mod, Nat.mod_add_mod]
  congr 2
  ring

end

/-! ## The recursions -/

/-- Settles O50: each of the three sums is a product of limbs and one or two more limbs, so it fits. -/
theorem limbFullMultiplyIsExact : Obligations.LimbFullMultiplyIsExact := by
  intro i
  induction i with
  | zero => exact fun x y hx hy => fits_mul_add (h := 64) hx hy (Nat.two_pow_pos 64)
  | succ i ih =>
    intro x y hx hy
    have hwidth : 64 * 2 ^ (i + 1) = 2 * (64 * 2 ^ i) := by rw [Nat.pow_succ]; ring
    rw [hwidth] at hx hy
    rw [limbFullMul]
    generalize 64 * 2 ^ i = h at ih hx hy ⊢
    have hu1 := fits_mul_add (limbHi_lt h x) (limbLo_lt h y) (limbHi_lt h (limbLo h x * limbLo h y))
    have hu2 := fits_mul_add (limbLo_lt h x) (limbHi_lt h y)
      (limbLo_lt h (limbHi h x * limbLo h y + limbHi h (limbLo h x * limbLo h y)))
    simp only [ih _ _ (limbLo_lt h x) (limbLo_lt h y), ih _ _ (limbHi_lt h x) (limbLo_lt h y),
      ih _ _ (limbLo_lt h x) (limbHi_lt h y), ih _ _ (limbHi_lt h x) (limbHi_lt h y), Option.bind_eq_bind,
      Option.bind_some, hu1, hu2, fits_mul_add_add (limbHi_lt h x) (limbHi_lt h y) (limbHi_lt h _) (limbHi_lt h _)]
    obtain ⟨hlt1, -⟩ := fits_eq_some.mp hu1
    obtain ⟨hlt2, -⟩ := fits_eq_some.mp hu2
    exact congrArg some (mul_eq_concat_crossSums hx hy hlt1 hlt2 rfl rfl).symm

/-- Settles O51: the low limbs' product is O50's, and the cross terms count only modulo a limb. -/
theorem limbTruncatedMultiplyIsExact : Obligations.LimbTruncatedMultiplyIsExact := by
  intro e
  induction e with
  | zero => exact fun _ _ _ _ => rfl
  | succ e ih =>
    intro x y hx hy
    have hfull := limbFullMultiplyIsExact (e + 1)
    rw [← Config.width_eq_limb] at hfull
    rw [Config.width_succ] at hx hy ⊢
    rw [limbTruncMul]
    generalize Config.width e = h at ih hfull hx hy ⊢
    simp only [hfull _ _ (limbLo_lt h x) (limbLo_lt h y), ih _ _ (limbLo_lt h x) (limbHi_lt h y),
      ih _ _ (limbHi_lt h x) (limbLo_lt h y), Option.bind_eq_bind, Option.bind_some]
    exact congrArg some (mul_mod_eq_concat hx hy).symm

end Sys2Proof.Machine
end

section
/-! The multiplier's nested loops over words (spec/43_multiplier.md R135, R136): what setting one word does to the value
of an array, the invariant of the inner loop, and for each form the invariant of its rows. -/

namespace Sys2Proof.Machine

/-! ## Loops that always answer -/

/-- A loop whose every turn answers and leads its invariant on answers with the invariant after the last turn. -/
theorem foldlM_range_of_invariant {α : Type} {f : α → Nat → Option α} {Inv : Nat → α → Prop} {init : α} {k : Nat}
    (hinit : Inv 0 init) (hstep : ∀ m acc, m < k → Inv m acc → ∃ acc', f acc m = some acc' ∧ Inv (m + 1) acc') :
    ∃ acc, (List.range k).foldlM f init = some acc ∧ Inv k acc := by
  induction k with
  | zero => exact ⟨init, rfl, hinit⟩
  | succ k ih =>
    obtain ⟨acc, hacc, hinv⟩ := ih fun m acc hm => hstep m acc (hm.trans k.lt_succ_self)
    obtain ⟨acc', hacc', hinv'⟩ := hstep k acc k.lt_succ_self hinv
    refine ⟨acc', ?_, hinv'⟩
    rw [List.range_succ, List.foldlM_append, hacc]
    simp [hacc']

/-! ## Word arrays -/

/-- An array of `n` words of 64 bits. -/
structure IsWordArray (n : Nat) (r : List Nat) : Prop where
  length_eq : r.length = n
  word_lt : ∀ d ∈ r, d < 2 ^ 64

theorem isWordArray_replicate_zero (n : Nat) : IsWordArray n (List.replicate n 0) where
  length_eq := List.length_replicate
  word_lt d hd := by
    rw [List.eq_of_mem_replicate hd]
    exact Nat.two_pow_pos 64

section
variable {n : Nat} {r : List Nat} (hr : IsWordArray n r)
include hr

theorem IsWordArray.set {v : Nat} (hv : v < 2 ^ 64) (p : Nat) : IsWordArray n (r.set p v) where
  length_eq := List.length_set.trans hr.length_eq
  word_lt d hd := (List.mem_or_eq_of_mem_set hd).elim (hr.word_lt d) fun h => h ▸ hv

theorem IsWordArray.lt_length {p : Nat} (hp : p < n) : p < r.length := hp.trans_eq hr.length_eq.symm

theorem IsWordArray.entry_lt (p : Nat) : entry r p < 2 ^ 64 := by
  by_cases hp : p < r.length
  · rw [entry, List.getD_eq_getElem _ _ hp]
    exact hr.word_lt _ (List.getElem_mem hp)
  · rw [entry, List.getD_eq_default _ _ (Nat.le_of_not_lt hp)]
    exact Nat.two_pow_pos 64

theorem IsWordArray.fromWords_lt : fromWords r < wordBase ^ n :=
  hr.length_eq ▸ Machine.fromWords_lt r hr.word_lt

end

theorem entry_replicate_zero (n p : Nat) : entry (List.replicate n 0) p = 0 := by
  by_cases hp : p < n <;> simp [entry, hp]

theorem fromWords_replicate_zero (n : Nat) : fromWords (List.replicate n 0) = 0 := by
  induction n with
  | zero => rfl
  | succ n ih => rw [List.replicate_succ, fromWords, ih, Nat.mul_zero]

theorem entry_set_of_ne {p q : Nat} (h : p ≠ q) (r : List Nat) (v : Nat) : entry (r.set p v) q = entry r q := by
  rw [entry, entry, List.getD_eq_getElem?_getD, List.getElem?_set_ne h, List.getD_eq_getElem?_getD]

/-- Setting a word exchanges its old value for the new one at its place. -/
theorem fromWords_set {r : List Nat} {p : Nat} (hp : p < r.length) (v : Nat) :
    fromWords (r.set p v) + wordBase ^ p * entry r p = fromWords r + wordBase ^ p * v := by
  induction r generalizing p with
  | nil => exact absurd hp (Nat.not_lt_zero p)
  | cons d r ih =>
    cases p with
    | zero =>
      simp only [List.set_cons_zero, fromWords, entry, List.getD_cons_zero, Nat.pow_zero]
      ring
    | succ p =>
      have hrest := ih (Nat.lt_of_succ_lt_succ hp)
      simp only [List.set_cons_succ, fromWords, entry, List.getD_cons_succ, Nat.pow_succ] at hrest ⊢
      linear_combination wordBase * hrest

/-- The words up to the next one are those before it and it in its place. -/
theorem mod_wordBase_pow_succ (x m : Nat) :
    x % wordBase ^ (m + 1) = x % wordBase ^ m + wordBase ^ m * word x m := by
  rw [Nat.pow_succ, Nat.mod_mul, word, field, Nat.pow_mul, wordBase_eq]

theorem mod_wordBase_pow_of_lt {k x : Nat} (hx : x < 2 ^ (64 * k)) : x % wordBase ^ k = x := by
  rw [Nat.pow_mul] at hx
  exact Nat.mod_eq_of_lt hx

/-! ## The inner loop -/

/-- The inner loop of word `j` of `y` after `m` turns from the array `r`: the array and the carry in its place have
gained the product of the word and the first `m` words of `x`, and the words from the carry's place up are those of
`r`. -/
structure PartialRow (n x y j : Nat) (r : List Nat) (m : Nat) (acc : Accumulator) : Prop where
  words : IsWordArray n acc.r
  carry_lt : acc.carry < 2 ^ 64
  value : fromWords acc.r + wordBase ^ (m + j) * acc.carry
    = fromWords r + wordBase ^ j * (x % wordBase ^ m * word y j)
  above : ∀ q, m + j ≤ q → entry acc.r q = entry r q

section
variable {n x y j : Nat} {r : List Nat}

theorem partialRow_zero (hr : IsWordArray n r) : PartialRow n x y j r 0 ⟨r, 0⟩ where
  words := hr
  carry_lt := Nat.two_pow_pos 64
  value := by simp [Nat.mod_one]
  above _ _ := rfl

/-- One turn: a product of two words has room for the array's word and the carry, so the sum has two words. -/
theorem mulStep_partialRow {m : Nat} {acc : Accumulator} (hm : m + j < n) (h : PartialRow n x y j r m acc) :
    ∃ acc', mulStep x y j acc m = some acc' ∧ PartialRow n x y j r (m + 1) acc' := by
  have hfits := fits_mul_add_add (word_lt x m) (word_lt y j) (h.words.entry_lt (m + j)) h.carry_lt
  have ht := (fits_eq_some.mp hfits).1
  rw [mulStep, hfits]
  generalize htdef : word x m * word y j + entry acc.r (m + j) + acc.carry = t at ht
  refine ⟨_, rfl, h.words.set (Nat.mod_lt t (Nat.two_pow_pos 64)) _, Nat.div_lt_of_lt_mul ht, ?_, fun q hq => ?_⟩
  · have hset := fromWords_set (h.words.lt_length hm) (t % wordBase)
    have hdiv := Nat.mod_add_div t wordBase
    have hvalue := h.value
    rw [mod_wordBase_pow_succ, Nat.add_right_comm, Nat.pow_succ]
    rw [Nat.pow_add] at hset hvalue ⊢
    rw [← htdef] at hdiv hset ⊢
    linear_combination hset + hvalue + wordBase ^ m * wordBase ^ j * hdiv
  · exact (entry_set_of_ne (by omega) _ _).trans (h.above q (by omega))

theorem exists_partialRow {k : Nat} (hk : k + j ≤ n) (hr : IsWordArray n r) :
    ∃ acc, (List.range k).foldlM (mulStep x y j) ⟨r, 0⟩ = some acc ∧ PartialRow n x y j r k acc :=
  foldlM_range_of_invariant (partialRow_zero hr) fun _ _ hm => mulStep_partialRow (by omega)

end

/-! ## The full multiply (R135) -/

/-- R135 after `j` rows: the product with the first `j` words of `y`, and no word above it is set. -/
structure FullRows (k x y j : Nat) (r : List Nat) : Prop where
  words : IsWordArray (2 * k) r
  value : fromWords r = x * (y % wordBase ^ j)
  above : ∀ q, j + k ≤ q → entry r q = 0

theorem fullRows_zero (k x y : Nat) : FullRows k x y 0 (List.replicate (2 * k) 0) where
  words := isWordArray_replicate_zero _
  value := by rw [fromWords_replicate_zero, Nat.pow_zero, Nat.mod_one, Nat.mul_zero]
  above q _ := entry_replicate_zero _ q

section
variable {k x y j : Nat} {r : List Nat}

/-- A row ends with its carry in a word that was 0. -/
theorem fullRow_fullRows (hx : x < 2 ^ (64 * k)) (hj : j < k) (h : FullRows k x y j r) :
    ∃ r', fullRow k x y r j = some r' ∧ FullRows k x y (j + 1) r' := by
  obtain ⟨acc, hacc, hrow⟩ := exists_partialRow (x := x) (y := y) (k := k) (j := j) (by omega) h.words
  rw [fullRow, hacc]
  refine ⟨_, rfl, hrow.words.set hrow.carry_lt _, ?_, fun q hq => ?_⟩
  · have hzero : entry acc.r (j + k) = 0 := (hrow.above _ (by omega)).trans (h.above _ le_rfl)
    have hset := fromWords_set (hrow.words.lt_length (p := j + k) (by omega)) acc.carry
    have hvalue := hrow.value
    rw [hzero, Nat.mul_zero, Nat.add_zero] at hset
    rw [mod_wordBase_pow_of_lt hx, h.value, Nat.add_comm k j] at hvalue
    rw [hset, hvalue, mod_wordBase_pow_succ]
    ring
  · rw [entry_set_of_ne (by omega), hrow.above q (by omega), h.above q (by omega)]

end

/-- Settles O52: after all K rows the array holds the product with all words of `y`. -/
theorem schoolbookFullMultiplyIsExact : Obligations.SchoolbookFullMultiplyIsExact := by
  intro k x y hx hy
  obtain ⟨r, hr, hrows⟩ := foldlM_range_of_invariant (fullRows_zero k x y) fun _ _ => fullRow_fullRows hx
  rw [schoolbookFull, hr]
  exact congrArg some (hrows.value.trans (by rw [mod_wordBase_pow_of_lt hy]))

/-! ## The truncated multiply (R136) -/

/-- R136 after `j` rows: the product with the first `j` words of `y`, modulo the array's width. -/
structure TruncRows (k x y j : Nat) (r : List Nat) : Prop where
  words : IsWordArray k r
  value : fromWords r ≡ x * (y % wordBase ^ j) [MOD wordBase ^ k]

theorem truncRows_zero (k x y : Nat) : TruncRows k x y 0 (List.replicate k 0) where
  words := isWordArray_replicate_zero k
  value := by rw [fromWords_replicate_zero, Nat.pow_zero, Nat.mod_one, Nat.mul_zero]

section
variable {k x y j : Nat} {r : List Nat}

/-- Folding a sum into the last word adds it there modulo the array's width. -/
theorem fromWords_set_last_modEq {m : Nat} (hr : IsWordArray (m + 1) r) (v : Nat) :
    fromWords (r.set m (trunc 64 (entry r m + v))) ≡ fromWords r + wordBase ^ m * v [MOD wordBase ^ (m + 1)] := by
  have hfold : wordBase ^ m * trunc 64 (entry r m + v) ≡ wordBase ^ m * (entry r m + v) [MOD wordBase ^ (m + 1)] := by
    rw [Nat.pow_succ]
    exact (Nat.mod_modEq (entry r m + v) wordBase).mul_left' _
  apply Nat.ModEq.add_right_cancel' (wordBase ^ m * entry r m)
  calc fromWords (r.set m (trunc 64 (entry r m + v))) + wordBase ^ m * entry r m
      = fromWords r + wordBase ^ m * trunc 64 (entry r m + v) := fromWords_set (hr.lt_length m.lt_succ_self) _
    _ ≡ fromWords r + wordBase ^ m * (entry r m + v) [MOD wordBase ^ (m + 1)] := hfold.add_left _
    _ = fromWords r + wordBase ^ m * v + wordBase ^ m * entry r m := by ring

/-- The words of `x` that a row skips lie above the array. -/
theorem row_modEq (hj : j ≤ k) (w : Nat) :
    wordBase ^ j * (x % wordBase ^ (k - j) * w) ≡ wordBase ^ j * (x * w) [MOD wordBase ^ k] := by
  rw [← pow_mul_pow_sub wordBase hj]
  exact ((Nat.mod_modEq x _).mul_right w).mul_left' _

/-- A row whose inner loop stops before the last word folds its last pair and its carry there. -/
theorem truncRow_truncRows (hj : j < k) (h : TruncRows k x y j r) :
    ∃ r', truncRow k x y r j = some r' ∧ TruncRows k x y (j + 1) r' := by
  obtain ⟨m, rfl⟩ : ∃ m, k = m + j + 1 := ⟨k - j - 1, by omega⟩
  have hlast : m + j + 1 - 1 - j = m := by omega
  obtain ⟨acc, hacc, hrow⟩ := exists_partialRow (x := x) (y := y) (k := m) (j := j) (by omega) h.words
  rw [truncRow, hlast, hacc, Nat.add_sub_cancel]
  refine ⟨_, rfl, hrow.words.set (trunc_lt 64 _) _, ?_⟩
  rw [Nat.add_assoc (entry acc.r (m + j))]
  calc fromWords (acc.r.set (m + j) (trunc 64 (entry acc.r (m + j) + (word x m * word y j + acc.carry))))
      ≡ fromWords acc.r + wordBase ^ (m + j) * (word x m * word y j + acc.carry) [MOD wordBase ^ (m + j + 1)] :=
        fromWords_set_last_modEq hrow.words _
    _ = fromWords r + wordBase ^ j * (x % wordBase ^ (m + j + 1 - j) * word y j) := by
        have hcount : m + j + 1 - j = m + 1 := by omega
        have hvalue := hrow.value
        rw [hcount, mod_wordBase_pow_succ]
        rw [Nat.pow_add] at hvalue ⊢
        linear_combination hvalue
    _ ≡ x * (y % wordBase ^ j) + wordBase ^ j * (x * word y j) [MOD wordBase ^ (m + j + 1)] :=
        h.value.add (row_modEq hj.le _)
    _ = x * (y % wordBase ^ (j + 1)) := by
        rw [mod_wordBase_pow_succ]
        ring

end

/-- Settles O53: after all K rows the array holds the product with all words of `y`, reduced to the array's width. -/
theorem schoolbookTruncatedMultiplyIsExact : Obligations.SchoolbookTruncatedMultiplyIsExact := by
  intro k x y _ hy
  obtain ⟨r, hr, hrows⟩ := foldlM_range_of_invariant (truncRows_zero k x y) fun _ _ => truncRow_truncRows
  have hvalue := hrows.value
  rw [mod_wordBase_pow_of_lt hy, Nat.ModEq, Nat.mod_eq_of_lt hrows.words.fromWords_lt, wordBase_eq, ← Nat.pow_mul]
    at hvalue
  rw [schoolbookTrunc, hr]
  exact congrArg some hvalue

end Sys2Proof.Machine
end

section
/-! The divider's commands (spec/44_divider.md R155 to R159): the procedure by signs and magnitudes is the library's
truncating division of words, each command keeps its rule by the shape of a two-operand command and the value of its
answer, and the laws are those of quotient and remainder. -/

namespace Sys2Proof.Machine

open Sys2Proof.Claims

/-! ## Values -/

section
variable {n : Nat} (u v : BitVec n)

theorem udivrem_eq_ofNat :
    udivrem u v = ⟨BitVec.ofNat n (u.toNat / v.toNat), BitVec.ofNat n (u.toNat % v.toNat)⟩ :=
  congrArg₂ DivResult.mk (eq_ofNat_of_toNat_eq BitVec.toNat_udiv) (eq_ofNat_of_toNat_eq BitVec.toNat_umod)

/-- The four combinations of signs are the four cases of truncating division (R155). -/
theorem sdivrem_eq : sdivrem u v = ⟨u.sdiv v, u.srem v⟩ := by
  rw [BitVec.sdiv_eq, BitVec.srem_eq]
  cases hu : u.msb <;> cases hv : v.msb <;> simp [sdivrem, udivrem, magnitude, negateIf, negate_eq_neg, hu, hv]

theorem sdivrem_eq_ofInt :
    sdivrem u v = ⟨BitVec.ofInt n (u.toInt.tdiv v.toInt), BitVec.ofInt n (u.toInt.tmod v.toInt)⟩ := by
  have hquot : u.sdiv v = BitVec.ofInt n (u.toInt.tdiv v.toInt) :=
    BitVec.eq_of_toInt_eq (by rw [BitVec.toInt_sdiv, BitVec.toInt_ofInt])
  have hrem : u.srem v = BitVec.ofInt n (u.toInt.tmod v.toInt) := by
    rw [← BitVec.toInt_srem, BitVec.ofInt_toInt]
  rw [sdivrem_eq, hquot, hrem]

end

/-! ## The commands -/

theorem raise_divz_eq (s : State) : s.raise .divz = divByZero s := by
  simp [State.raise_eq, divByZero, BlockFault.code]

/-- A division that runs `divide` is a two-operand command whose effect has the two cases of R158. -/
theorem divisionRule_of_answer {opc : Nat} {mk : ASel → BSel → Instr}
    {quot rem : (n : Nat) → BitVec n → BitVec n → BitVec n} (hform : (Form.readsAB mk).Encodes opc)
    (hanswer : ∀ a b amount n (u v : BitVec n),
      instrAnswer (mk a b) amount u v = .division v ⟨quot n u v, rem n u v⟩) :
    DivisionRule opc mk quot rem := by
  have htwo : TwoOperandRule opc mk fun s u v => divide s v ⟨quot s.width u v, rem s.width u v⟩ :=
    twoOperandRule_of_finish hform fun a b s u v => by rw [hanswer, divide_eq_finish]
  obtain ⟨hdecode, hillegal, hvalid, hmissing⟩ := htwo
  refine ⟨hdecode, hillegal, fun a b s u v hA hB hv => ?_, fun a b s u hA hB => ?_, hmissing⟩
  · exact (hvalid a b s u v hA hB).trans (congrArg Host.Outcome.next (divide_nonzero s _ hv))
  · exact (hvalid a b s u 0 hA hB).trans (congrArg Host.Outcome.next ((divide_zero s _).trans (raise_divz_eq s)))

/-- Settles O37: the answer's values are quotient and remainder on naturals. -/
theorem udivremCommand : Obligations.UdivremCommand :=
  divisionRule_of_answer (encodes_of_opcodeForm (o := 0x28) rfl) fun _ _ _ _ u v =>
    congrArg (Answer.division v) (udivrem_eq_ofNat u v)

/-- Settles O38: the answer's values are the truncating quotient and remainder on integers, modulo `2 ^ N`. -/
theorem sdivremCommand : Obligations.SdivremCommand :=
  divisionRule_of_answer (encodes_of_opcodeForm (o := 0x29) rfl) fun _ _ _ _ u v =>
    congrArg (Answer.division v) (sdivrem_eq_ofInt u v)

/-! ## Laws (R155, R159) -/

theorem exec_udivrem {s : State} {a : ASel} {b : BSel} {u v : BitVec s.width} (hA : s.opA a = some u)
    (hB : s.opB b = some v) (hv : v ≠ 0) :
    exec (.udivrem a b) s = .next (s.finish { r0 := some (u / v), r1 := some (u % v) }) := by
  have hanswer : instrAnswer (.udivrem a b) (s.shiftAmount (.udivrem a b)) u v
      = { r0 := some (u / v), r1 := some (u % v) } := if_neg hv
  rw [← hanswer]
  exact exec_of_operands hA hB

/-- Quotient times divisor plus remainder is the dividend, modulo `2 ^ N` too. -/
theorem sum_productLow_udivrem {n : Nat} (u v : BitVec n) : sum (productLow (u / v) v) (u % v) = u := by
  apply BitVec.eq_of_toNat_eq
  rw [sum, productLow, BitVec.toNat_add, BitVec.toNat_ofNat, BitVec.toNat_udiv, BitVec.toNat_umod, Nat.mod_add_mod,
    Nat.div_add_mod', Nat.mod_eq_of_lt u.isLt]

/-- Settles O42: the three commands run on valid registers, and the law is that of division on naturals. -/
theorem divisionLaw : Obligations.DivisionLaw := by
  intro s a u hA hv
  rw [← opA_eq_operandA] at hA
  have hdiv : (u / s.ports.b).toNat * s.ports.b.toNat + (u % s.ports.b).toNat = u.toNat := by
    rw [BitVec.toNat_udiv, BitVec.toNat_umod, Nat.div_add_mod']
  have hrem : (u % s.ports.b).toNat < s.ports.b.toNat := by
    rw [BitVec.toNat_umod]
    exact Nat.mod_lt _ (Nat.pos_of_ne_zero fun hzero => hv (BitVec.eq_of_toNat_eq hzero))
  exact ⟨_, _, _, _, _, exec_udivrem hA rfl hv, rfl, rfl, hdiv, hrem, exec_mul rfl rfl, exec_add rfl rfl,
    view_r0_congr (sum_productLow_udivrem u s.ports.b)⟩

theorem toInt_neg_one {n : Nat} (hn : 0 < n) : (-1 : BitVec n).toInt = -1 := by
  have hones : (-1 : BitVec n) = BitVec.allOnes n := BitVec.neg_one_eq_allOnes
  rw [hones, BitVec.toInt_allOnes, if_pos hn]

/-- Settles O43: each clause is a fact of the library's truncating division. -/
theorem signedDivisionProcedure : Obligations.SignedDivisionProcedure := by
  intro e u v hv
  rw [sdivrem_eq]
  refine ⟨?_, fun hwrap => ?_, ?_, ?_⟩
  · rintro ⟨rfl, rfl⟩
    have hdvd : (-1 : BitVec (Config.width e)).toInt ∣ (BitVec.intMin (Config.width e)).toInt := by
      rw [toInt_neg_one (Config.width_pos e)]
      exact Int.neg_dvd.mpr (one_dvd _)
    exact ⟨BitVec.intMin_sdiv_neg_one, BitVec.srem_zero_of_dvd hdvd⟩
  · have hquot := BitVec.toInt_sdiv_of_ne_or_ne u v (not_and_or.mp hwrap)
    exact ⟨hquot, by rw [hquot, BitVec.toInt_srem, Int.tdiv_mul_add_tmod]⟩
  · by_cases hzero : u.srem v = 0
    · exact .inl hzero
    · exact .inr (by rw [BitVec.msb_srem, decide_eq_true hzero, Bool.and_true])
  · rw [BitVec.toInt_srem, Int.natAbs_tmod]
    exact Nat.mod_lt _ (Int.natAbs_pos.mpr fun hzero => hv (BitVec.toInt_inj.mp (by simpa using hzero)))

end Sys2Proof.Machine
end

section
/-! The divider's one-word path (spec/44_divider.md R153): what `nzWords` says of a value, and the loop's law by
induction on its counter. -/

namespace Sys2Proof.Machine

open Sys2Proof.Claims

/-! ## The leading word of a value -/

theorem wordBase_pos : 0 < wordBase := Nat.two_pow_pos 64

theorem wordBase_pow_pos (k : Nat) : 0 < wordBase ^ k := Nat.pow_pos wordBase_pos

theorem wordBase_pow_eq (k : Nat) : wordBase ^ k = 2 ^ (64 * k) := (Nat.pow_mul 2 64 k).symm

theorem word_eq_div_mod (x j : Nat) : word x j = x / wordBase ^ j % wordBase := by
  rw [wordBase_pow_eq, wordBase_eq, word, field]

/-- The top word needs no reduction. -/
theorem word_eq_div {x j : Nat} (hx : x < wordBase ^ (j + 1)) : word x j = x / wordBase ^ j := by
  rw [Nat.pow_succ] at hx
  rw [word_eq_div_mod, Nat.mod_eq_of_lt (Nat.div_lt_of_lt_mul hx)]

/-- A value has no word above those that `nzWords` counts. -/
theorem lt_wordBase_pow_nzWords {k x : Nat} (hx : x < 2 ^ (64 * k)) : x < wordBase ^ nzWords k x := by
  induction k with
  | zero => exact hx
  | succ k ih =>
    rw [nzWords]
    split
    next => exact hx.trans_eq (wordBase_pow_eq _).symm
    next htop => exact ih (lt_of_top_word_zero hx (not_not.mp htop))

theorem word_nzWords_ne_zero {k x n : Nat} (hn : nzWords k x = n + 1) : word x n ≠ 0 := by
  induction k with
  | zero => exact absurd hn (Nat.succ_ne_zero n).symm
  | succ k ih =>
    rw [nzWords] at hn
    split at hn
    next htop => exact Nat.succ.inj hn ▸ htop
    next => exact ih hn

/-- The top word that is not 0 makes the value at least its place. -/
theorem wordBase_pow_le_of_nzWords {k x n : Nat} (hn : nzWords k x = n + 1) : wordBase ^ n ≤ x := by
  by_contra hlt
  refine word_nzWords_ne_zero hn ?_
  rw [word_eq_div_mod, Nat.div_eq_of_lt (Nat.lt_of_not_le hlt), Nat.zero_mod]

theorem nzWords_pos {k x : Nat} (hx : x < 2 ^ (64 * k)) (hne : x ≠ 0) : 0 < nzWords k x := by
  refine Nat.pos_of_ne_zero fun hzero => hne ?_
  have hlt := lt_wordBase_pow_nzWords hx
  rw [hzero, Nat.pow_zero] at hlt
  exact Nat.lt_one_iff.mp hlt

/-! ## Short division -/

theorem mul_add_lt_mul {a b d m : Nat} (ha : a < m) (hd : d < b) : a * b + d < m * b :=
  calc a * b + d < a * b + b := Nat.add_lt_add_left hd _
    _ = (a + 1) * b := (Nat.succ_mul a b).symm
    _ ≤ m * b := Nat.mul_le_mul_right b ha

section
variable {u v j r : Nat}

/-- One turn's numerator in place: the remainder above the next word and the words below it. -/
theorem remainder_with_words :
    r * wordBase ^ (j + 1) + u % wordBase ^ (j + 1)
      = ((r * wordBase + word u j) % v * wordBase ^ j + u % wordBase ^ j)
        + v * ((r * wordBase + word u j) / v * wordBase ^ j) := by
  have hdiv := Nat.mod_add_div (r * wordBase + word u j) v
  rw [mod_wordBase_pow_succ, Nat.pow_succ]
  calc r * (wordBase ^ j * wordBase) + (u % wordBase ^ j + wordBase ^ j * word u j)
      = (r * wordBase + word u j) * wordBase ^ j + u % wordBase ^ j := by ring
    _ = ((r * wordBase + word u j) % v + v * ((r * wordBase + word u j) / v)) * wordBase ^ j + u % wordBase ^ j := by
        rw [hdiv]
    _ = _ := by ring

/-- R153's loop divides the remainder so far and the words still to come: a remainder below the divisor keeps the
numerator within 128 bits and the quotient word within 64. -/
theorem shortLoop_eq (hv : 0 < v) (hv64 : v < wordBase) (hr : r < v) (q : List Nat) :
    ∃ q', shortLoop u v j r q = some ((r * wordBase ^ j + u % wordBase ^ j) % v, q')
      ∧ fromWords q' = (r * wordBase ^ j + u % wordBase ^ j) / v + wordBase ^ j * fromWords q := by
  induction j generalizing r q with
  | zero =>
    refine ⟨q, ?_, ?_⟩
    · simp [shortLoop, Nat.mod_one, Nat.mod_eq_of_lt hr]
    · simp [Nat.mod_one, Nat.div_eq_of_lt hr]
  | succ j ih =>
    have hfits : fits 128 (r * wordBase + word u j) = some (r * wordBase + word u j) :=
      fits_of_lt (concat_lt (hr.trans hv64) (word_lt u j))
    have hquot : fits 64 ((r * wordBase + word u j) / v) = some ((r * wordBase + word u j) / v) :=
      fits_of_lt (Nat.div_lt_of_lt_mul (mul_add_lt_mul hr (word_lt u j)))
    obtain ⟨q', hloop, hvalue⟩ :=
      ih (Nat.mod_lt (r * wordBase + word u j) hv) ((r * wordBase + word u j) / v :: q)
    rw [remainder_with_words, Nat.add_mul_mod_self_left, Nat.add_mul_div_left _ _ hv]
    refine ⟨q', ?_, ?_⟩
    · rw [shortLoop, hfits, Option.bind_eq_bind, Option.bind_some, hquot]
      exact hloop
    · rw [hvalue, fromWords, Nat.pow_succ]
      ring

end

/-- Settles O54: the loop starts with remainder 0 above all words of the dividend. -/
theorem shortDivisionIsExact : Obligations.ShortDivisionIsExact := by
  intro k u v hu hv hv64
  obtain ⟨q, hloop, hvalue⟩ := shortLoop_eq (u := u) (j := nzWords k u) hv hv64 hv []
  rw [Nat.zero_mul, Nat.zero_add, Nat.mod_eq_of_lt (lt_wordBase_pow_nzWords hu)] at hloop hvalue
  rw [fromWords, Nat.mul_zero, Nat.add_zero] at hvalue
  rw [shortDivision, hloop]
  exact congrArg (fun quotient => some (quotient, u % v)) hvalue

end Sys2Proof.Machine
end

section
/-! The divider's trial quotient (spec/44_divider.md R149, R154): with the divisor's top word normalized, the first trial
is at most two above the true word, the test rejects only a trial that is too high, and what it accepts is at most one
above. -/

namespace Sys2Proof.Machine

open Sys2Proof.Claims

/-! ## One correction -/

section
variable {qhat rhat v1 v2 u2 : Nat}

theorem correctTrial_of_accepted (h : trialTooHigh qhat rhat v2 u2 = some false) (fuel : Nat) :
    correctTrial fuel qhat rhat v1 v2 u2 = some qhat := by
  cases fuel <;> rw [correctTrial, h] <;> rfl

theorem correctTrial_of_rejected (h : trialTooHigh qhat rhat v2 u2 = some true) {fuel : Nat} :
    correctTrial (fuel + 1) qhat rhat v1 v2 u2
      = if wordBase ≤ rhat + v1 then some (qhat - 1) else correctTrial fuel (qhat - 1) (rhat + v1) v1 v2 u2 := by
  rw [correctTrial, h]
  rfl

end

/-! ## The true word and the leading words -/

/-- What the leading words say of the true quotient word `q`: `num` and `u2` are the dividend's first two words and its
third, `v1` and `v2` the divisor's first two. Words further down count as less than one in the last place. -/
structure TrialOperands (q num u2 v1 v2 : Nat) : Prop where
  quotient_lt : q < wordBase
  u2_lt : u2 < wordBase
  v1_lt : v1 < wordBase
  v2_lt : v2 < wordBase
  normalized : wordBase ≤ 2 * v1
  lower : q * (v1 * wordBase + v2) ≤ num * wordBase + u2
  upper : num * wordBase + u2 < (q + 1) * (v1 * wordBase + v2 + 1)

section
variable {q num u2 v1 v2 : Nat} (h : TrialOperands q num u2 v1 v2)
include h

theorem TrialOperands.v1_pos : 0 < v1 := by
  have := h.normalized
  have := wordBase_pos
  omega

/-- R154's bound on the first word: the numerator is below one more than the divisor's top word. -/
theorem TrialOperands.num_lt : num < (v1 + 1) * wordBase := by
  have hlast : v1 * wordBase + v2 + 1 ≤ (v1 + 1) * wordBase := mul_add_lt_mul v1.lt_succ_self h.v2_lt
  refine Nat.lt_of_mul_lt_mul_right (a := wordBase) ?_
  calc num * wordBase ≤ num * wordBase + u2 := Nat.le_add_right _ _
    _ < (q + 1) * (v1 * wordBase + v2 + 1) := h.upper
    _ ≤ wordBase * ((v1 + 1) * wordBase) := Nat.mul_le_mul h.quotient_lt hlast
    _ = (v1 + 1) * wordBase * wordBase := Nat.mul_comm _ _

theorem TrialOperands.le_first : q ≤ num / v1 := by
  refine (Nat.le_div_iff_mul_le h.v1_pos).mpr (Nat.lt_succ_iff.mp (Nat.lt_of_mul_lt_mul_right (a := wordBase) ?_))
  calc q * v1 * wordBase ≤ q * (v1 * wordBase + v2) := by
        rw [Nat.mul_assoc]
        exact Nat.mul_le_mul_left q (Nat.le_add_right _ _)
    _ ≤ num * wordBase + u2 := h.lower
    _ < (num + 1) * wordBase := mul_add_lt_mul num.lt_succ_self h.u2_lt

/-- The first trial is at most two too high: a third would make the true word reach `2 * v1`, a whole word. -/
theorem TrialOperands.first_le : num / v1 ≤ q + 2 := by
  by_contra hhigh
  have hfirst : (q + 3) * v1 ≤ num := (Nat.le_div_iff_mul_le h.v1_pos).mp (Nat.lt_of_not_le hhigh)
  have hlast : v1 * wordBase + v2 + 1 ≤ (v1 + 1) * wordBase := mul_add_lt_mul v1.lt_succ_self h.v2_lt
  have hcompare : (q + 3) * v1 < (q + 1) * (v1 + 1) := by
    refine Nat.lt_of_mul_lt_mul_right (a := wordBase) ?_
    calc (q + 3) * v1 * wordBase ≤ num * wordBase := Nat.mul_le_mul_right _ hfirst
      _ ≤ num * wordBase + u2 := Nat.le_add_right _ _
      _ < (q + 1) * (v1 * wordBase + v2 + 1) := h.upper
      _ ≤ (q + 1) * ((v1 + 1) * wordBase) := Nat.mul_le_mul_left _ hlast
      _ = (q + 1) * (v1 + 1) * wordBase := (Nat.mul_assoc _ _ _).symm
  have hq := h.quotient_lt
  have hnormalized := h.normalized
  linarith

section
variable {qhat rhat : Nat} (hsplit : qhat * v1 + rhat = num)
include hsplit

/-- R154's bound on a trial that has not been corrected below its numerator. -/
theorem TrialOperands.trial_le : qhat ≤ wordBase + 1 := by
  have hnum := h.num_lt
  have hnormalized := h.normalized
  refine Nat.lt_succ_iff.mp (Nat.lt_of_mul_lt_mul_right (a := v1) ?_)
  linarith

theorem TrialOperands.trial_lt (hr : wordBase ≤ rhat) : qhat < wordBase := by
  have hnum := h.num_lt
  refine Nat.lt_of_mul_lt_mul_right (a := v1) ?_
  linarith

/-- R149's test rejects only a trial above the true word. -/
theorem TrialOperands.lt_of_tooHigh (htest : wordBase ≤ qhat ∨ rhat * wordBase + u2 < qhat * v2) : q < qhat := by
  rcases htest with hbig | hproduct
  · exact h.quotient_lt.trans_le hbig
  · refine Nat.lt_of_mul_lt_mul_right (a := v1 * wordBase + v2) (h.lower.trans_lt ?_)
    rw [← hsplit]
    linarith

/-- What R149's test accepts is at most one above the true word. -/
theorem TrialOperands.le_of_not_tooHigh (hq : qhat ≤ wordBase) (htest : qhat * v2 ≤ rhat * wordBase + u2) :
    qhat ≤ q + 1 := by
  by_contra hhigh
  obtain ⟨d, rfl⟩ : ∃ d, qhat = q + 2 + d := ⟨qhat - (q + 2), by omega⟩
  have hupper := h.upper
  have hplace : wordBase ≤ v1 * wordBase := Nat.le_mul_of_pos_left _ h.v1_pos
  subst hsplit
  nlinarith

/-- The test itself stays within 128 bits (R154). -/
theorem TrialOperands.trialTooHigh_eq (hr : rhat < wordBase) :
    trialTooHigh qhat rhat v2 u2 = some (decide (wordBase ≤ qhat ∨ rhat * wordBase + u2 < qhat * v2)) := by
  have hproduct : qhat * v2 < 2 ^ 128 := by
    have hq := h.trial_le hsplit
    have hv2 := h.v2_lt
    rw [wordBase_eq] at hq hv2
    nlinarith
  have hsum : fits 128 (rhat * wordBase + u2) = some (rhat * wordBase + u2) := fits_of_lt (concat_lt hr h.u2_lt)
  rw [trialTooHigh, fits_of_lt hproduct, Option.bind_eq_bind, Option.bind_some, hsum, Option.bind_some,
    Bool.decide_or]

end

/-- The corrections end on the true word or one more while they may still reach it. -/
theorem TrialOperands.exists_correctTrial {fuel qhat rhat : Nat} (hsplit : qhat * v1 + rhat = num)
    (hr : rhat < wordBase) (hle : q ≤ qhat) (hfuel : qhat ≤ q + fuel) :
    ∃ qhat', correctTrial fuel qhat rhat v1 v2 u2 = some qhat' ∧ q ≤ qhat' ∧ qhat' ≤ q + 1 ∧ qhat' < wordBase := by
  induction fuel generalizing qhat rhat with
  | zero =>
    have hq : qhat = q := Nat.le_antisymm hfuel hle
    have haccept : ¬(wordBase ≤ qhat ∨ rhat * wordBase + u2 < qhat * v2) := fun htest =>
      (h.lt_of_tooHigh hsplit htest).ne' hq
    refine ⟨qhat, correctTrial_of_accepted ?_ 0, hle, hq.le.trans q.le_succ, hq.trans_lt h.quotient_lt⟩
    rw [h.trialTooHigh_eq hsplit hr, decide_eq_false haccept]
  | succ fuel ih =>
    have htest := h.trialTooHigh_eq hsplit hr
    by_cases hhigh : wordBase ≤ qhat ∨ rhat * wordBase + u2 < qhat * v2
    · have hlt := h.lt_of_tooHigh hsplit hhigh
      obtain ⟨p, rfl⟩ : ∃ p, qhat = p + 1 := ⟨qhat - 1, by omega⟩
      have hsplit' : p * v1 + (rhat + v1) = num := by rw [← hsplit]; ring
      rw [decide_eq_true hhigh] at htest
      rw [correctTrial_of_rejected htest, Nat.add_sub_cancel]
      split_ifs with hbreak
      · have hp := h.trial_lt hsplit' hbreak
        have hproduct : p * v2 ≤ (rhat + v1) * wordBase + u2 :=
          (Nat.mul_le_mul (hp.le.trans hbreak) h.v2_lt.le).trans (Nat.le_add_right _ _)
        exact ⟨p, rfl, Nat.lt_succ_iff.mp hlt, h.le_of_not_tooHigh hsplit' hp.le hproduct, hp⟩
      · exact ih hsplit' (Nat.lt_of_not_le hbreak) (Nat.lt_succ_iff.mp hlt) (by omega)
    · obtain ⟨hsmall, hproduct⟩ := not_or.mp hhigh
      have hsmall := Nat.lt_of_not_le hsmall
      rw [decide_eq_false hhigh] at htest
      exact ⟨qhat, correctTrial_of_accepted htest _, hle,
        h.le_of_not_tooHigh hsplit hsmall.le (Nat.le_of_not_lt hproduct), hsmall⟩

end

/-! ## The window -/

/-- The words below a place, and the word there. -/
theorem fromWords_take_succ (r : List Nat) (m : Nat) :
    fromWords (r.take (m + 1)) = fromWords (r.take m) + wordBase ^ m * entry r m := by
  induction r generalizing m with
  | nil => simp [entry]
  | cons d r ih =>
    cases m with
    | zero => simp [fromWords, entry]
    | succ m =>
      have hentry : entry (d :: r) (m + 1) = entry r m := List.getD_cons_succ
      rw [List.take_succ_cons, List.take_succ_cons, fromWords, fromWords, ih, hentry, Nat.pow_succ]
      ring

theorem entry_drop (r : List Nat) (j i : Nat) : entry (r.drop j) i = entry r (j + i) := by
  rw [entry, entry, List.getD_eq_getElem?_getD, List.getElem?_drop, List.getD_eq_getElem?_getD]

section
variable {n : Nat} {r : List Nat} (hr : IsWordArray n r)
include hr

theorem IsWordArray.take_lt (m : Nat) : fromWords (r.take m) < wordBase ^ m :=
  (Machine.fromWords_lt _ fun d hd => hr.word_lt d (List.mem_of_mem_take hd)).trans_le
    (Nat.pow_le_pow_right wordBase_pos (List.length_take_le m r))

theorem IsWordArray.drop (j : Nat) : IsWordArray (n - j) (r.drop j) where
  length_eq := by rw [List.length_drop, hr.length_eq]
  word_lt d hd := hr.word_lt d (List.mem_of_mem_drop hd)

/-- The top two words of a slice. -/
theorem IsWordArray.take_add_two_div (i : Nat) :
    fromWords (r.take (i + 2)) / wordBase ^ i = entry r (i + 1) * wordBase + entry r i := by
  have hsplit : fromWords (r.take (i + 2))
      = fromWords (r.take i) + wordBase ^ i * (entry r (i + 1) * wordBase + entry r i) := by
    rw [fromWords_take_succ, fromWords_take_succ, Nat.pow_succ]
    ring
  rw [hsplit, Nat.add_mul_div_left _ _ (wordBase_pow_pos i), Nat.div_eq_of_lt (hr.take_lt i), Nat.zero_add]

/-- The top three words of a slice. -/
theorem IsWordArray.take_add_three_div (i : Nat) :
    fromWords (r.take (i + 3)) / wordBase ^ i
      = (entry r (i + 2) * wordBase + entry r (i + 1)) * wordBase + entry r i := by
  have hsplit : fromWords (r.take (i + 3)) = fromWords (r.take (i + 2)) + wordBase ^ i
      * (entry r (i + 2) * wordBase * wordBase) := by
    rw [fromWords_take_succ, Nat.pow_succ, Nat.pow_succ]
    ring
  rw [hsplit, Nat.add_mul_div_left _ _ (wordBase_pow_pos i), hr.take_add_two_div]
  ring

end

section
variable {u v place : Nat} (hplace : 0 < place)
include hplace

theorem div_mul_div_le_div : u / v * (v / place) ≤ u / place := by
  rw [Nat.le_div_iff_mul_le hplace, Nat.mul_assoc]
  exact (Nat.mul_le_mul_left _ (Nat.div_mul_le_self v place)).trans (Nat.div_mul_le_self u v)

theorem div_lt_succ_mul_succ (hv : 0 < v) : u / place < (u / v + 1) * (v / place + 1) := by
  rw [Nat.div_lt_iff_lt_mul hplace, Nat.mul_assoc]
  calc u < (u / v + 1) * v := (Nat.div_lt_iff_lt_mul hv).mp (u / v).lt_succ_self
    _ ≤ (u / v + 1) * ((v / place + 1) * place) :=
        Nat.mul_le_mul_left _ ((Nat.div_lt_iff_lt_mul hplace).mp (v / place).lt_succ_self).le

end

section
variable {len i j : Nat} {un vn : List Nat} (hun : IsWordArray len un) (hvn : IsWordArray (i + 2) vn)
include hun hvn

/-- A window below a whole word times a normalized divisor of `i + 2` words. -/
theorem trialOperands_window (hnormalized : wordBase ≤ 2 * entry vn (i + 1))
    (hwindow : fromWords ((un.drop j).take (i + 3)) < fromWords vn * wordBase) :
    TrialOperands (fromWords ((un.drop j).take (i + 3)) / fromWords vn)
      (entry un (j + (i + 2)) * wordBase + entry un (j + (i + 1))) (entry un (j + i))
      (entry vn (i + 1)) (entry vn i) := by
  have hu := (hun.drop j).take_add_three_div i
  have hv := hvn.take_add_two_div i
  rw [entry_drop, entry_drop, entry_drop] at hu
  rw [List.take_of_length_le hvn.length_eq.le] at hv
  have hpos : 0 < fromWords vn := Nat.pos_of_mul_pos_right (Nat.zero_lt_of_lt hwindow)
  have hplace := wordBase_pow_pos i
  exact {
    quotient_lt := Nat.div_lt_of_lt_mul hwindow
    u2_lt := hun.entry_lt _
    v1_lt := hvn.entry_lt _
    v2_lt := hvn.entry_lt _
    normalized := hnormalized
    lower := by
      rw [← hu, ← hv]
      exact div_mul_div_le_div hplace
    upper := by
      rw [← hu, ← hv]
      exact div_lt_succ_mul_succ hplace hpos }

/-- R149's procedure answers the true word of the window or one more, in one word. -/
theorem exists_trialQuotient (hnormalized : wordBase ≤ 2 * entry vn (i + 1))
    (hwindow : fromWords ((un.drop j).take (i + 3)) < fromWords vn * wordBase) :
    ∃ qhat, trialQuotient un vn j (i + 2) = some qhat
      ∧ fromWords ((un.drop j).take (i + 3)) / fromWords vn ≤ qhat
      ∧ qhat ≤ fromWords ((un.drop j).take (i + 3)) / fromWords vn + 1 ∧ qhat < wordBase := by
  have h := trialOperands_window hun hvn hnormalized hwindow
  have hnum : fits 128 (entry un (j + (i + 2)) * wordBase + entry un (j + (i + 1)))
      = some (entry un (j + (i + 2)) * wordBase + entry un (j + (i + 1))) :=
    fits_of_lt (concat_lt (hun.entry_lt _) (hun.entry_lt _))
  obtain ⟨qhat, htrial, hle, hge, hlt⟩ := h.exists_correctTrial (Nat.div_add_mod' _ _)
    ((Nat.mod_lt _ h.v1_pos).trans h.v1_lt) h.le_first h.first_le
  refine ⟨qhat, ?_, hle, hge, hlt⟩
  have hsecond (m : Nat) : m + (i + 2) - 1 = m + (i + 1) := rfl
  have hthird (m : Nat) : m + (i + 2) - 2 = m + i := rfl
  rw [trialQuotient, hsecond j, hthird j, hnum, Option.bind_eq_bind, Option.bind_some]
  exact (congrArg (· >>= fits 64) htrial).trans (fits_of_lt hlt)

end

/-- Settles O55: the statement's arrays are word arrays, and a normalized top word is half a whole word or more. -/
theorem trialQuotientIsTrueOrOneMore : Obligations.TrialQuotientIsTrueOrOneMore := by
  intro un vn j n hn hlength _ hun hvn hnormalized hwindow
  obtain ⟨i, rfl⟩ : ∃ i, n = i + 2 := ⟨n - 2, by omega⟩
  have hdouble : wordBase ≤ 2 * entry vn (i + 1) := by
    have hhalf : 2 ^ 63 ≤ entry vn (i + 1) := hnormalized
    rw [wordBase_eq]
    omega
  obtain ⟨qhat, htrial, hle, hge, -⟩ := exists_trialQuotient ⟨rfl, hun⟩ ⟨hlength, hvn⟩ hdouble hwindow
  exact ⟨qhat, htrial, hle, hge⟩

end Sys2Proof.Machine
end

section
/-! One quotient word of Algorithm D (spec/44_divider.md R150, R151): the two inner loops over the divisor's words, each
with the invariant of its value, and from them that subtracting and adding back leaves quotient word and partial
remainder. -/

namespace Sys2Proof.Machine

/-! ## Slices of word arrays -/

theorem fromWords_take_add_drop (r : List Nat) (m : Nat) :
    fromWords (r.take m) + wordBase ^ m * fromWords (r.drop m) = fromWords r := by
  rcases Nat.le_total m r.length with hm | hm
  · conv_rhs => rw [← List.take_append_drop m r]
    rw [fromWords_append, List.length_take_of_le hm]
  · rw [List.take_of_length_le hm, List.drop_eq_nil_of_le hm, fromWords, Nat.mul_zero, Nat.add_zero]

section
variable {len p q : Nat} {r un : List Nat}

theorem IsWordArray.fromWords_take (hr : IsWordArray len r) (m : Nat) :
    fromWords (r.take m) = fromWords r % wordBase ^ m := by
  rw [← fromWords_take_add_drop r m, Nat.add_mul_mod_self_left, Nat.mod_eq_of_lt (hr.take_lt m)]

theorem IsWordArray.fromWords_drop (hr : IsWordArray len r) (m : Nat) :
    fromWords (r.drop m) = fromWords r / wordBase ^ m := by
  rw [← fromWords_take_add_drop r m, Nat.add_mul_div_left _ _ (wordBase_pow_pos m), Nat.div_eq_of_lt (hr.take_lt m),
    Nat.zero_add]

/-- A value below a place is an array with no word from there up. -/
theorem IsWordArray.fromWords_lt_iff (hr : IsWordArray len r) :
    fromWords r < wordBase ^ p ↔ ∀ q, p ≤ q → entry r q = 0 := by
  refine ⟨fun hlt q hq => ?_, fun habove => ?_⟩
  · by_contra hne
    have hword : wordBase ^ q ≤ fromWords r :=
      calc wordBase ^ q ≤ wordBase ^ q * entry r q := Nat.le_mul_of_pos_right _ (Nat.pos_of_ne_zero hne)
        _ ≤ fromWords (r.take (q + 1)) := fromWords_take_succ r q ▸ Nat.le_add_left _ _
        _ ≤ fromWords r := fromWords_take_add_drop r (q + 1) ▸ Nat.le_add_right _ _
    exact absurd (hlt.trans_le (Nat.pow_le_pow_right wordBase_pos hq)) (Nat.not_lt_of_le hword)
  · have hslice (d : Nat) : fromWords (r.take (p + d)) = fromWords (r.take p) := by
      induction d with
      | zero => rfl
      | succ d ih => rw [← Nat.add_assoc, fromWords_take_succ, habove _ (Nat.le_add_right p d), ih, Nat.mul_zero,
          Nat.add_zero]
    rw [← List.take_of_length_le (l := r) (i := p + len) (by rw [hr.length_eq]; omega), hslice]
    exact hr.take_lt p

/-- The array `r` has come from `un` by changes below place `p`. -/
structure ChangedBelow (len p : Nat) (un r : List Nat) : Prop where
  words : IsWordArray len r
  above : ∀ q, p ≤ q → entry r q = entry un q

theorem changedBelow_refl (hun : IsWordArray len un) : ChangedBelow len p un un := ⟨hun, fun _ _ => rfl⟩

theorem ChangedBelow.set (h : ChangedBelow len p un r) {v : Nat} (hv : v < wordBase) :
    ChangedBelow len (p + 1) un (r.set p v) where
  words := h.words.set hv p
  above q hq := (entry_set_of_ne (by omega) r v).trans (h.above q (by omega))

theorem ChangedBelow.fromWords_lt (h : ChangedBelow len p un r) (hun : IsWordArray len un)
    (hlt : fromWords un < wordBase ^ p) : fromWords r < wordBase ^ p :=
  h.words.fromWords_lt_iff.mpr fun q hq => (h.above q hq).trans (hun.fromWords_lt_iff.mp hlt q hq)

end

/-! ## Multiply and subtract (R150) -/

/-- A word less at most a whole word borrows at most one. -/
theorem subtractWord_spec {x y : Nat} (hx : x < wordBase) (hy : y ≤ wordBase) :
    (subtractWord x y).1 < wordBase ∧ (subtractWord x y).2 ≤ 1
      ∧ x + wordBase * (subtractWord x y).2 = (subtractWord x y).1 + y := by
  rcases Nat.lt_or_ge x y with hlt | hge
  · have hborrow : (x : Int) - y < 0 := by omega
    have hmod : ((x : Int) - y) % wordBase = (x : Int) - y + wordBase := by
      rw [← Int.add_emod_right, Int.emod_eq_of_lt] <;> omega
    simp only [subtractWord, hmod, b2i, decide_eq_true hborrow, if_true]
    omega
  · have hborrow : ¬ (x : Int) - y < 0 := by omega
    have hmod : ((x : Int) - y) % wordBase = (x : Int) - y := by
      rw [Int.emod_eq_of_lt] <;> omega
    simp only [subtractWord, hmod, b2i, decide_eq_false hborrow, Bool.false_eq_true, if_false]
    omega

/-- R150's loop after `m` turns from the array `un`: with carry and borrow in their place, it has lost the product of the
quotient word and the divisor's first `m` words. -/
structure PartialSubtraction (len : Nat) (un vn : List Nat) (j qhat m : Nat) (w : Window) : Prop where
  changed : ChangedBelow len (m + j) un w.un
  carry_lt : w.carry < wordBase
  borrow_le : w.borrow ≤ 1
  value : fromWords w.un + wordBase ^ j * (qhat * fromWords (vn.take m))
    = fromWords un + wordBase ^ (m + j) * (w.carry + w.borrow)

section
variable {len n j qhat : Nat} {un vn : List Nat} (hun : IsWordArray len un) (hvn : IsWordArray n vn)

include hun in
theorem partialSubtraction_zero : PartialSubtraction len un vn j qhat 0 ⟨un, 0, 0⟩ where
  changed := changedBelow_refl hun
  carry_lt := wordBase_pos
  borrow_le := Nat.zero_le 1
  value := by simp [fromWords]

include hvn in
/-- One turn: the product of two words has room for the carry (R154). -/
theorem mulSubStep_partialSubtraction (hq : qhat < wordBase) {m : Nat} (hm : m + j < len) {w : Window}
    (h : PartialSubtraction len un vn j qhat m w) :
    ∃ w', mulSubStep vn j qhat w m = some w' ∧ PartialSubtraction len un vn j qhat (m + 1) w' := by
  have hfits : fits 128 (qhat * entry vn m + w.carry) = some (qhat * entry vn m + w.carry) :=
    fits_mul_add (h := 64) hq (hvn.entry_lt m) h.carry_lt
  have hp := (fits_eq_some.mp hfits).1
  rw [mulSubStep, hfits]
  generalize hpdef : qhat * entry vn m + w.carry = p at hp
  have hmod := Nat.mod_lt p wordBase_pos
  have hborrow := h.borrow_le
  obtain ⟨hword, hborrow', hsub⟩ :=
    subtractWord_spec (x := entry w.un (m + j)) (y := p % wordBase + w.borrow) (h.changed.words.entry_lt _) (by omega)
  refine ⟨_, rfl, ?_, Nat.div_lt_of_lt_mul hp, hborrow', ?_⟩
  · rw [Nat.add_right_comm]
    exact h.changed.set hword
  · have hset := fromWords_set (h.changed.words.lt_length hm)
      (subtractWord (entry w.un (m + j)) (p % wordBase + w.borrow)).1
    have hdiv := Nat.mod_add_div p wordBase
    have hvalue := h.value
    rw [fromWords_take_succ, Nat.add_right_comm, Nat.pow_succ]
    rw [Nat.pow_add] at hset hvalue ⊢
    rw [← hpdef] at hdiv hsub hset ⊢
    linear_combination hset + hvalue - wordBase ^ m * wordBase ^ j * hdiv - wordBase ^ m * wordBase ^ j * hsub

include hun hvn in
/-- R150 takes the product away from the array, up to one borrow from above the window. -/
theorem exists_mulSub (hq : qhat < wordBase) (hj : j + n < len) (hlt : fromWords un < wordBase ^ (j + n + 1)) :
    ∃ un' borrow, mulSub un vn j n qhat = some (un', borrow) ∧ borrow ≤ 1 ∧ IsWordArray len un'
      ∧ fromWords un' < wordBase ^ (j + n + 1)
      ∧ fromWords un' + wordBase ^ j * fromWords vn * qhat = fromWords un + wordBase ^ (j + n + 1) * borrow := by
  obtain ⟨w, hloop, h⟩ := foldlM_range_of_invariant (k := n)
    (partialSubtraction_zero (vn := vn) (j := j) (qhat := qhat) hun)
    fun _ _ _ => mulSubStep_partialSubtraction hvn hq (by omega)
  have hchanged := h.changed
  have hvalue := h.value
  rw [Nat.add_comm n j] at hchanged hvalue
  rw [List.take_of_length_le hvn.length_eq.le] at hvalue
  have hcarry := h.carry_lt
  have hborrow := h.borrow_le
  obtain ⟨hword, hborrow', hsub⟩ :=
    subtractWord_spec (x := entry w.un (j + n)) (y := w.carry + w.borrow) (hchanged.words.entry_lt _) (by omega)
  have hset := fromWords_set (hchanged.words.lt_length hj)
    (subtractWord (entry w.un (j + n)) (w.carry + w.borrow)).1
  have hchanged' := hchanged.set hword
  refine ⟨_, _, ?_, hborrow', hchanged'.words, hchanged'.fromWords_lt hun hlt, ?_⟩
  · rw [mulSub, hloop]
    rfl
  · rw [Nat.pow_succ]
    linear_combination hset + hvalue - wordBase ^ (j + n) * hsub

end

/-! ## Add-back (R151) -/

theorem foldl_range_of_invariant {α : Type} {f : α → Nat → α} {Inv : Nat → α → Prop} {init : α} {k : Nat}
    (hinit : Inv 0 init) (hstep : ∀ m acc, m < k → Inv m acc → Inv (m + 1) (f acc m)) :
    Inv k ((List.range k).foldl f init) := by
  induction k with
  | zero => exact hinit
  | succ k ih =>
    rw [List.range_succ, List.foldl_append]
    exact hstep k _ k.lt_succ_self (ih fun m acc hm => hstep m acc (hm.trans k.lt_succ_self))

/-- R151's loop after `m` turns from the array `un`: with the carry in its place, it has gained the divisor's first `m`
words. -/
structure PartialAddition (len : Nat) (un vn : List Nat) (j m : Nat) (acc : List Nat × Nat) : Prop where
  changed : ChangedBelow len (m + j) un acc.1
  carry_le : acc.2 ≤ 1
  value : fromWords acc.1 + wordBase ^ (m + j) * acc.2 = fromWords un + wordBase ^ j * fromWords (vn.take m)

section
variable {len n j : Nat} {un vn : List Nat} (hun : IsWordArray len un) (hvn : IsWordArray n vn)

include hun in
theorem partialAddition_zero : PartialAddition len un vn j 0 (un, 0) where
  changed := changedBelow_refl hun
  carry_le := Nat.zero_le 1
  value := by simp [fromWords]

include hvn in
theorem addBackStep_partialAddition {m : Nat} (hm : m + j < len) {acc : List Nat × Nat}
    (h : PartialAddition len un vn j m acc) : PartialAddition len un vn j (m + 1) (addBackStep vn j acc m) := by
  have hcarry := h.carry_le
  have hentry : entry acc.1 (m + j) < wordBase := h.changed.words.entry_lt (m + j)
  have hdigit : entry vn m < wordBase := hvn.entry_lt m
  rw [addBackStep]
  generalize htdef : entry acc.1 (m + j) + entry vn m + acc.2 = t
  refine ⟨?_, Nat.lt_succ_iff.mp (Nat.div_lt_of_lt_mul (by omega)), ?_⟩
  · rw [Nat.add_right_comm]
    exact h.changed.set (Nat.mod_lt t wordBase_pos)
  · have hset := fromWords_set (h.changed.words.lt_length hm) (t % wordBase)
    have hdiv := Nat.mod_add_div t wordBase
    have hvalue := h.value
    rw [fromWords_take_succ, Nat.add_right_comm, Nat.pow_succ]
    rw [Nat.pow_add] at hset hvalue ⊢
    rw [← htdef] at hdiv hset ⊢
    linear_combination hset + hvalue + wordBase ^ m * wordBase ^ j * hdiv

include hun hvn in
/-- R151 adds the divisor to the window, and what carries out of it is lost. -/
theorem addBack_spec (hj : j + n < len) (hlt : fromWords un < wordBase ^ (j + n + 1)) :
    IsWordArray len (addBack un vn j n)
      ∧ fromWords (addBack un vn j n) = (fromWords un + wordBase ^ j * fromWords vn) % wordBase ^ (j + n + 1) := by
  have h := foldl_range_of_invariant (k := n) (partialAddition_zero (vn := vn) (j := j) hun)
    fun _ _ _ => addBackStep_partialAddition hvn (by omega)
  rw [addBack]
  generalize (List.range n).foldl (addBackStep vn j) (un, 0) = acc at h
  have hchanged := h.changed
  have hvalue := h.value
  rw [Nat.add_comm n j] at hchanged hvalue
  rw [List.take_of_length_le hvn.length_eq.le] at hvalue
  have hset := fromWords_set (hchanged.words.lt_length hj) ((entry acc.1 (j + n) + acc.2) % wordBase)
  have hdiv := Nat.mod_add_div (entry acc.1 (j + n) + acc.2) wordBase
  have hchanged' := hchanged.set (Nat.mod_lt (entry acc.1 (j + n) + acc.2) wordBase_pos)
  refine ⟨hchanged'.words, ?_⟩
  have hlost : fromWords un + wordBase ^ j * fromWords vn
      = fromWords (acc.1.set (j + n) ((entry acc.1 (j + n) + acc.2) % wordBase))
        + wordBase ^ (j + n + 1) * ((entry acc.1 (j + n) + acc.2) / wordBase) := by
    rw [Nat.pow_succ]
    linear_combination -hvalue - hset - wordBase ^ (j + n) * hdiv
  rw [hlost, Nat.add_mul_mod_self_left, Nat.mod_eq_of_lt (hchanged'.fromWords_lt hun hlt)]

end

/-! ## The quotient word -/

section
variable {un vn un' : List Nat} {j n qhat : Nat}

theorem mulSubAddBack_of_no_borrow (h : mulSub un vn j n qhat = some (un', 0)) :
    mulSubAddBack un vn j n qhat = some (un', qhat) := by
  rw [mulSubAddBack, h]
  rfl

theorem mulSubAddBack_of_borrow (h : mulSub un vn j n qhat = some (un', 1)) :
    mulSubAddBack un vn j n qhat = some (addBack un' vn j n, qhat - 1) := by
  rw [mulSubAddBack, h]
  rfl

end

/-- The subtraction borrows exactly where the trial word is one too high. -/
theorem borrow_cases {x divisor window q rem qhat borrow : Nat} (hle : q ≤ qhat) (hge : qhat ≤ q + 1)
    (hborrow : borrow ≤ 1) (hrem : rem < divisor) (hx : x < window)
    (hvalue : x + divisor * qhat = divisor * q + rem + window * borrow) :
    (borrow = 0 ∧ qhat = q ∧ x = rem) ∨ (borrow = 1 ∧ qhat = q + 1 ∧ x + divisor = rem + window) := by
  rcases Nat.eq_or_lt_of_le hle with rfl | hhigh
  · refine .inl ?_
    interval_cases borrow <;> omega
  · obtain rfl : qhat = q + 1 := by omega
    rw [Nat.mul_succ] at hvalue
    refine .inr ?_
    interval_cases borrow <;> omega

section
variable {len n j qhat : Nat} {un vn : List Nat} (hun : IsWordArray len un) (hvn : IsWordArray n vn)
include hun hvn

/-- From the true quotient word or one more, R151 leaves the true word and the partial remainder; the window of `n + 1`
words borrows exactly where the trial was one too high. -/
theorem exists_mulSubAddBack (hq : qhat < wordBase) (hj : j + n < len)
    (hle : fromWords un / (wordBase ^ j * fromWords vn) ≤ qhat)
    (hge : qhat ≤ fromWords un / (wordBase ^ j * fromWords vn) + 1)
    (hlt : fromWords un < wordBase ^ (j + n + 1)) (hpos : 0 < fromWords vn) :
    ∃ un', mulSubAddBack un vn j n qhat = some (un', fromWords un / (wordBase ^ j * fromWords vn))
      ∧ IsWordArray len un' ∧ fromWords un' = fromWords un % (wordBase ^ j * fromWords vn) := by
  obtain ⟨un', borrow, hsub, hborrow, hun', hlt', hvalue⟩ := exists_mulSub hun hvn hq hj hlt
  have hplaced : wordBase ^ j * fromWords vn < wordBase ^ (j + n + 1) := by
    rw [Nat.pow_succ, Nat.pow_add]
    exact (Nat.mul_lt_mul_of_pos_left hvn.fromWords_lt (wordBase_pow_pos j)).trans_le
      (Nat.le_mul_of_pos_right _ wordBase_pos)
  have hdiv := Nat.div_add_mod (fromWords un) (wordBase ^ j * fromWords vn)
  have hrem := Nat.mod_lt (fromWords un) (Nat.mul_pos (wordBase_pow_pos j) hpos)
  rw [← hdiv] at hvalue
  rcases borrow_cases hle hge hborrow hrem hlt' hvalue with ⟨rfl, hq', hun''⟩ | ⟨rfl, hq', hun''⟩
  · exact ⟨un', hq' ▸ mulSubAddBack_of_no_borrow hsub, hun', hun''⟩
  · obtain ⟨haddBack, hadded⟩ := addBack_spec hun' hvn hj hlt'
    refine ⟨addBack un' vn j n, ?_, haddBack, ?_⟩
    · rw [mulSubAddBack_of_borrow hsub, hq', Nat.add_sub_cancel]
    · rw [hadded, hun'', Nat.add_mod_right, Nat.mod_eq_of_lt (hrem.trans hplaced)]

end

end Sys2Proof.Machine
end

section
/-! The divider's long path and the choice of a path (spec/44_divider.md R146 to R148, R152, R160): the loop over the
quotient words, what normalization gives it, and that all paths answer quotient and remainder. -/

namespace Sys2Proof.Machine

open Sys2Proof.Claims

/-! ## The loop (R147) -/

section
variable {len i : Nat} {vn : List Nat} (hvn : IsWordArray (i + 2) vn) (hnormalized : wordBase ≤ 2 * entry vn (i + 1))
include hvn hnormalized

theorem fromWords_pos_of_normalized : 0 < fromWords vn := by
  have htop : 0 < entry vn (i + 1) := Nat.pos_of_mul_pos_left (wordBase_pos.trans_le hnormalized)
  rw [← List.take_of_length_le hvn.length_eq.le, fromWords_take_succ]
  exact Nat.add_pos_right _ (Nat.mul_pos (wordBase_pow_pos _) htop)

/-- One turn leaves the true quotient word and the partial remainder. -/
theorem exists_quotientTurn {un : List Nat} (hun : IsWordArray len un) {j : Nat} (hj : j + (i + 2) < len)
    (hlt : fromWords un < wordBase ^ (j + 1) * fromWords vn) :
    ∃ qhat un', trialQuotient un vn j (i + 2) = some qhat
      ∧ mulSubAddBack un vn j (i + 2) qhat = some (un', fromWords un / (wordBase ^ j * fromWords vn))
      ∧ IsWordArray len un' ∧ fromWords un' = fromWords un % (wordBase ^ j * fromWords vn) := by
  have hbelow : fromWords un < wordBase ^ (j + (i + 2) + 1) :=
    calc fromWords un < wordBase ^ (j + 1) * fromWords vn := hlt
      _ ≤ wordBase ^ (j + 1) * wordBase ^ (i + 2) := Nat.mul_le_mul_left _ hvn.fromWords_lt.le
      _ = wordBase ^ (j + (i + 2) + 1) := by rw [← Nat.pow_add]; congr 1; omega
  have hwindow : fromWords ((un.drop j).take (i + 3)) = fromWords un / wordBase ^ j := by
    rw [(hun.drop j).fromWords_take, hun.fromWords_drop, Nat.mod_eq_of_lt]
    refine Nat.div_lt_of_lt_mul ?_
    rw [← Nat.pow_add]
    exact hbelow
  have hwindowLt : fromWords ((un.drop j).take (i + 3)) < fromWords vn * wordBase := by
    rw [hwindow]
    refine Nat.div_lt_of_lt_mul (hlt.trans_eq ?_)
    rw [Nat.pow_succ]
    ring
  obtain ⟨qhat, htrial, hle, hge, hq⟩ := exists_trialQuotient hun hvn hnormalized hwindowLt
  rw [hwindow, Nat.div_div_eq_div_mul] at hle hge
  obtain ⟨un', hsub, hun', hvalue⟩ :=
    exists_mulSubAddBack hun hvn hq hj hle hge hbelow (fromWords_pos_of_normalized hvn hnormalized)
  exact ⟨qhat, un', htrial, hsub, hun', hvalue⟩

/-- The loop divides the array's value, word by word from the top. -/
theorem exists_quotientLoop {un : List Nat} (hun : IsWordArray len un) {count : Nat} (hcount : count + (i + 2) ≤ len)
    (hlt : fromWords un < wordBase ^ count * fromWords vn) (q : List Nat) :
    ∃ un' q', quotientLoop vn (i + 2) count un q = some (un', q') ∧ IsWordArray len un'
      ∧ fromWords un' = fromWords un % fromWords vn
      ∧ fromWords q' = fromWords un / fromWords vn + wordBase ^ count * fromWords q := by
  have hpos := fromWords_pos_of_normalized hvn hnormalized
  induction count generalizing un q with
  | zero =>
    rw [Nat.pow_zero, Nat.one_mul] at hlt
    refine ⟨un, q, rfl, hun, (Nat.mod_eq_of_lt hlt).symm, ?_⟩
    rw [Nat.div_eq_of_lt hlt, Nat.pow_zero, Nat.one_mul, Nat.zero_add]
  | succ j ih =>
    obtain ⟨qhat, un', htrial, hsub, hun', hvalue⟩ := exists_quotientTurn hvn hnormalized hun (by omega) hlt
    have hlt' : fromWords un' < wordBase ^ j * fromWords vn :=
      hvalue ▸ Nat.mod_lt _ (Nat.mul_pos (wordBase_pow_pos j) hpos)
    obtain ⟨un'', q', hloop, hun'', hrem, hquot⟩ :=
      ih hun' (by omega) hlt' (fromWords un / (wordBase ^ j * fromWords vn) :: q)
    refine ⟨un'', q', ?_, hun'', ?_, ?_⟩
    · rw [quotientLoop, htrial, Option.bind_eq_bind, Option.bind_some, hsub]
      exact hloop
    · rw [hrem, hvalue, Nat.mod_mul_left_mod]
    · have hdiv := Nat.mod_add_div (fromWords un / fromWords vn) (wordBase ^ j)
      rw [Nat.div_div_eq_div_mul, Nat.mul_comm (fromWords vn)] at hdiv
      rw [hquot, fromWords, hvalue, Nat.mod_mul_left_div_self, Nat.pow_succ]
      linear_combination hdiv

end

/-! ## Normalization (R148) -/

theorem fromWords_singleton (d : Nat) : fromWords [d] = d := by
  rw [fromWords, fromWords, Nat.mul_zero, Nat.add_zero d]

theorem fromWords_wordList (count x : Nat) : fromWords (wordList count x) = x % wordBase ^ count := by
  rw [wordBase_pow_eq]
  exact sumWords_word count x

theorem isWordArray_wordList (count x : Nat) : IsWordArray count (wordList count x) where
  length_eq := by rw [wordList, List.length_map, List.length_range]
  word_lt d hd := by
    obtain ⟨j, -, rfl⟩ := List.mem_map.mp hd
    exact word_lt x j

theorem IsWordArray.concat {n d : Nat} {r : List Nat} (hr : IsWordArray n r) (hd : d < wordBase) :
    IsWordArray (n + 1) (r ++ [d]) where
  length_eq := by rw [List.length_append, hr.length_eq, List.length_singleton]
  word_lt x hx := (List.mem_append.mp hx).elim (hr.word_lt x) fun h => List.mem_singleton.mp h ▸ hd

theorem entry_wordList {count p : Nat} (hp : p < count) (x : Nat) : entry (wordList count x) p = word x p := by
  rw [entry, wordList, List.getD_eq_getElem?_getD, List.getElem?_map, List.getElem?_range hp]
  rfl

section
variable {w : Nat} (hne : w ≠ 0) (hw : w < wordBase)
include hne hw

theorem clz64_add_log2 : Nat.log2 w + clz64 w = 63 := by
  have : Nat.log2 w < 64 := (Nat.log2_lt hne).mpr hw
  rw [clz64]
  omega

/-- R148's shift brings the highest set bit to the top. -/
theorem two_pow_le_mul_clz64 : 2 ^ 63 ≤ w * 2 ^ clz64 w :=
  calc 2 ^ 63 = 2 ^ Nat.log2 w * 2 ^ clz64 w := by rw [← Nat.pow_add, clz64_add_log2 hne hw]
    _ ≤ w * 2 ^ clz64 w := Nat.mul_le_mul_right _ (Nat.log2_self_le hne)

theorem succ_mul_clz64_le : (w + 1) * 2 ^ clz64 w ≤ wordBase :=
  calc (w + 1) * 2 ^ clz64 w ≤ 2 ^ (Nat.log2 w + 1) * 2 ^ clz64 w := Nat.mul_le_mul_right _ Nat.lt_log2_self
    _ = wordBase := by rw [← Nat.pow_add, Nat.add_right_comm, clz64_add_log2 hne hw, wordBase_eq]

end

/-- The extra word holds what the shift takes out of the top word; with no shift that is 0. -/
theorem shifted_out_eq {u p s : Nat} (hu : u < wordBase ^ (p + 1)) (hs : s ≤ 64) :
    (if s = 0 then 0 else word u p / 2 ^ (64 - s)) = u * 2 ^ s / wordBase ^ (p + 1) := by
  split_ifs with hzero
  · rw [hzero, Nat.pow_zero, Nat.mul_one, Nat.div_eq_of_lt hu]
  · have hplace : wordBase ^ (p + 1) = wordBase ^ p * 2 ^ (64 - s) * 2 ^ s := by
      rw [Nat.pow_succ, Nat.mul_assoc, ← Nat.pow_add, Nat.sub_add_cancel hs, wordBase_eq]
    rw [word_eq_div hu, hplace, Nat.mul_div_mul_right _ _ (Nat.two_pow_pos s), Nat.div_div_eq_div_mul]

/-- What Algorithm D needs of R148: both operands shifted alike, and the divisor's top bit set. -/
structure Normalized.Represents (z : Normalized) (u v n m : Nat) : Prop where
  divisor_words : IsWordArray n z.vn
  divisor_value : fromWords z.vn = v * 2 ^ z.shift
  normalized : wordBase ≤ 2 * entry z.vn (n - 1)
  dividend_words : IsWordArray (m + 1) z.un
  dividend_value : fromWords z.un = u * 2 ^ z.shift

section
variable {u v i p : Nat} (htop : word v i ≠ 0) (hv : v < wordBase ^ (i + 1))
include htop hv

theorem normalized_divisor_lt : v * 2 ^ clz64 (word v i) < wordBase ^ (i + 1) := by
  have hfloor : v < wordBase ^ i * (word v i + 1) := by
    rw [word_eq_div hv]
    exact Nat.lt_mul_div_succ v (wordBase_pow_pos i)
  calc v * 2 ^ clz64 (word v i) < wordBase ^ i * (word v i + 1) * 2 ^ clz64 (word v i) :=
        Nat.mul_lt_mul_of_pos_right hfloor (Nat.two_pow_pos _)
    _ ≤ wordBase ^ i * wordBase := by
        rw [Nat.mul_assoc]
        exact Nat.mul_le_mul_left _ (succ_mul_clz64_le htop (word_lt v i))
    _ = wordBase ^ (i + 1) := (pow_succ wordBase i).symm

theorem normalized_top_word : wordBase ≤ 2 * word (v * 2 ^ clz64 (word v i)) i := by
  have hfloor : wordBase ^ i * word v i ≤ v := by
    rw [word_eq_div hv]
    exact Nat.mul_div_le v _
  have hword : word v i * 2 ^ clz64 (word v i) ≤ word (v * 2 ^ clz64 (word v i)) i := by
    rw [word_eq_div (normalized_divisor_lt htop hv), Nat.le_div_iff_mul_le (wordBase_pow_pos i), Nat.mul_right_comm,
      Nat.mul_comm (word v i)]
    exact Nat.mul_le_mul_right _ hfloor
  have htwo := two_pow_le_mul_clz64 htop (word_lt v i)
  rw [wordBase_eq]
  omega

theorem normalize_represents (hu : u < wordBase ^ (p + 1)) :
    (normalize u v (i + 1) (p + 1)).Represents u v (i + 1) (p + 1) := by
  have hdivisor := normalized_divisor_lt htop hv
  have hnormalized := normalized_top_word htop hv
  have hshift : clz64 (word v i) < 64 := by unfold clz64; omega
  rw [normalize, Nat.add_sub_cancel, Nat.add_sub_cancel]
  generalize clz64 (word v i) = s at hdivisor hnormalized hshift
  have hextra : u * 2 ^ s / wordBase ^ (p + 1) < wordBase :=
    Nat.div_lt_of_lt_mul (Nat.mul_lt_mul'' hu (Nat.pow_lt_pow_right (by decide) hshift))
  rw [shifted_out_eq hu hshift.le]
  exact {
    divisor_words := isWordArray_wordList (i + 1) _
    divisor_value := (fromWords_wordList (i + 1) _).trans (Nat.mod_eq_of_lt hdivisor)
    normalized := hnormalized.trans_eq (congrArg (2 * ·) (entry_wordList i.lt_succ_self _).symm)
    dividend_words := (isWordArray_wordList (p + 1) _).concat hextra
    dividend_value := by
      rw [fromWords_append, fromWords_wordList, (isWordArray_wordList _ _).length_eq, fromWords_singleton,
        Nat.mod_add_div] }

end

/-! ## Algorithm D (R147, R152) -/

/-- The remainder lies in the divisor's words, shifted as the operands were. -/
theorem denormalize_eq {len n s u v : Nat} {r : List Nat} (hr : IsWordArray len r) (hlt : v * 2 ^ s < wordBase ^ n)
    (hv : 0 < v) (hvalue : fromWords r = u * 2 ^ s % (v * 2 ^ s)) : denormalize r n s = u % v := by
  have hbelow : fromWords r < wordBase ^ n :=
    (hvalue ▸ Nat.mod_lt _ (Nat.mul_pos hv (Nat.two_pow_pos s))).trans hlt
  rw [denormalize, hr.fromWords_take, Nat.mod_eq_of_lt hbelow, hvalue, Nat.mul_mod_mul_right,
    Nat.mul_div_cancel _ (Nat.two_pow_pos s)]

/-- The quotient has no word beyond the `p - i` that the loop finds. -/
theorem lt_quotientPlace_mul {u v i p : Nat} (hu : u < wordBase ^ (p + 1)) (hv : wordBase ^ (i + 1) ≤ v)
    (hlen : i + 2 ≤ p + 1) : u < wordBase ^ (p + 1 - (i + 2) + 1) * v :=
  calc u < wordBase ^ (p + 1) := hu
    _ = wordBase ^ (p + 1 - (i + 2) + 1) * wordBase ^ (i + 1) := by rw [← Nat.pow_add]; congr 1; omega
    _ ≤ wordBase ^ (p + 1 - (i + 2) + 1) * v := Nat.mul_le_mul_left _ hv

/-- Settles O56: the loop divides the normalized operands, whose quotient is that of the operands. -/
theorem algorithmDDivides : Obligations.AlgorithmDDivides := by
  intro k u v hu hvu hn
  obtain ⟨i, hi⟩ : ∃ i, nzWords k v = i + 2 := ⟨nzWords k v - 2, by omega⟩
  have hv := lt_wordBase_pow_nzWords (hvu.trans_lt hu)
  have hvLow := wordBase_pow_le_of_nzWords hi
  have hu' := lt_wordBase_pow_nzWords hu
  have hlen : i + 1 < nzWords k u := (Nat.pow_lt_pow_iff_right (by decide)).mp ((hvLow.trans hvu).trans_lt hu')
  obtain ⟨p, hp⟩ : ∃ p, nzWords k u = p + 1 := ⟨nzWords k u - 1, by omega⟩
  rw [hi] at hv
  rw [hp] at hu' hlen
  have hz := normalize_represents (word_nzWords_ne_zero hi) hv hu'
  rw [algorithmD, hi, hp, if_neg (by omega)]
  generalize normalize u v (i + 2) (p + 1) = z at hz
  have hvpos : 0 < v := (wordBase_pow_pos (i + 1)).trans_le hvLow
  have hscale := Nat.two_pow_pos z.shift
  have hlt : fromWords z.un < wordBase ^ (p + 1 - (i + 2) + 1) * fromWords z.vn := by
    rw [hz.dividend_value, hz.divisor_value, ← Nat.mul_assoc]
    exact Nat.mul_lt_mul_of_pos_right (lt_quotientPlace_mul hu' hvLow (by omega)) hscale
  obtain ⟨r, q, hloop, hr, hrem, hquot⟩ :=
    exists_quotientLoop hz.divisor_words hz.normalized hz.dividend_words (by omega) hlt []
  have hdivisor := hz.divisor_words.fromWords_lt
  rw [hz.divisor_value] at hdivisor
  rw [hz.dividend_value, hz.divisor_value] at hrem hquot
  rw [fromWords, Nat.mul_zero, Nat.add_zero, Nat.mul_div_mul_right _ _ hscale] at hquot
  simp only [hloop, Option.bind_eq_bind, Option.bind_some, hquot, denormalize_eq hr hdivisor hvpos hrem]

/-! ## The paths (R146, R160) -/

/-- Settles O57: each path's own rule gives the value, and the number of the divisor's words decides which of short
division, a quotient of 0 and Algorithm D applies. -/
theorem divisionPathsAgree : Obligations.DivisionPathsAgree := by
  intro k u v hu hv hne
  have hwords := nzWords_pos hv hne
  refine ⟨fun path happlies => ?_, ?_⟩
  · cases path with
    | short =>
      have hv64 := lt_wordBase_pow_nzWords hv
      rw [beq_iff_eq.mp happlies, Nat.pow_one] at hv64
      exact shortDivisionIsExact k u v hu (Nat.pos_of_ne_zero hne) hv64
    | below =>
      have hlt := of_decide_eq_true happlies
      rw [DivPath.divide, Nat.div_eq_of_lt hlt, Nat.mod_eq_of_lt hlt]
    | powerOfTwo =>
      have hpow : v = 2 ^ Nat.log2 v := beq_iff_eq.mp happlies
      rw [DivPath.divide, ← hpow]
      generalize Nat.log2 v = c at hpow
      rw [hpow, Nat.and_two_pow_sub_one_eq_mod]
    | general =>
      obtain ⟨hvu, hn⟩ := Bool.and_eq_true_iff.mp happlies
      exact algorithmDDivides k u v hu (of_decide_eq_true hvu) (of_decide_eq_true hn)
  · rcases Nat.lt_or_ge 1 (nzWords k v) with hlong | hone
    · rcases Nat.lt_or_ge u v with hlt | hge
      · exact ⟨.below, decide_eq_true hlt⟩
      · exact ⟨.general, Bool.and_eq_true_iff.mpr ⟨decide_eq_true hge, decide_eq_true hlong⟩⟩
    · exact ⟨.short, beq_iff_eq.mpr (Nat.le_antisymm hone hwords)⟩

end Sys2Proof.Machine
end

section
/-! Faults (spec/60_exceptions.md R171, R172, R175): the three codes a decoded command can report, each with its
condition, and what a fault leaves unchanged. -/

namespace Sys2Proof.Machine

open Sys2Proof.Claims

/-! ## Missing operands (R171) -/

section
variable (s : State)

theorem opA_eq_none_iff (a : ASel) : s.opA a = none ↔ (a = .r0 ∧ s.r0 = none) ∨ (a = .r1 ∧ s.r1 = none) := by
  cases a <;> simp

theorem opB_eq_none_iff (b : BSel) : s.opB b = none ↔ (b = .r0 ∧ s.r0 = none) ∨ (b = .r1 ∧ s.r1 = none) := by
  cases b <;> simp

/-- A command that does not read B misses no second operand. -/
theorem secondOperand_eq_none_iff (i : Instr) :
    s.secondOperand i = none ↔ (i.bsel = some .r0 ∧ s.r0 = none) ∨ (i.bsel = some .r1 ∧ s.r1 = none) := by
  unfold State.secondOperand
  cases i.bsel with
  | none => simp
  | some b => simp [opB_eq_none_iff]

theorem selectsInvalid_iff (i : Instr) : selectsInvalid i s ↔ s.opA i.asel = none ∨ s.secondOperand i = none := by
  rw [opA_eq_none_iff, secondOperand_eq_none_iff, or_assoc, selectsInvalid]

end

/-! ## The code of a command (R175) -/

theorem division_code {n : Nat} (v : BitVec n) (d : DivResult n) :
    (Answer.division v d).code = if v = 0 then .divz else .ok := by
  unfold Answer.division
  split <;> rfl

/-- On valid operands only the divisor of a division matters (R174). -/
theorem instrAnswer_code_cases {s : State} {i : Instr} {y : BitVec s.width} (hB : s.secondOperand i = some y)
    (amount : Nat) (x : BitVec s.width) :
    (dividesByZero i s ∧ (instrAnswer i amount x y).code = .divz)
      ∨ (¬ dividesByZero i s ∧ (instrAnswer i amount x y).code = .ok) := by
  cases i with
  | udivrem a b | sdivrem a b =>
    have hdivisor : operandB s b = some y := (secondOperand_of_bsel rfl).symm.trans hB
    rw [instrAnswer, division_code]
    rcases eq_or_ne y 0#_ with rfl | hy
    · exact .inl ⟨⟨a, b, by simp, hdivisor⟩, if_pos rfl⟩
    · exact .inr ⟨by simp [dividesByZero, hdivisor, hy], if_neg hy⟩
  | _ => exact .inr ⟨by simp [dividesByZero], rfl⟩

/-- Everything a decoded command can report, its conditions in the order of R175. -/
theorem answer_code_cases (i : Instr) (s : State) :
    (selectsInvalid i s ∧ (s.answer i).code = .undefOperand)
      ∨ (¬ selectsInvalid i s ∧ dividesByZero i s ∧ (s.answer i).code = .divz)
      ∨ (¬ selectsInvalid i s ∧ ¬ dividesByZero i s ∧ (s.answer i).code = .ok) := by
  rw [selectsInvalid_iff]
  cases hA : s.opA i.asel with
  | none => exact .inl ⟨.inl rfl, by rw [State.answer, hA]; rfl⟩
  | some x =>
    cases hB : s.secondOperand i with
    | none => exact .inl ⟨.inr rfl, by rw [State.answer, hA, hB]; rfl⟩
    | some y =>
      have hvalid : ¬ (some x = none ∨ some y = none) := by simp
      rw [State.answer, hA, hB]
      exact .inr ((instrAnswer_code_cases hB _ x).imp (⟨hvalid, ·⟩) (⟨hvalid, ·⟩))

/-- Settles O10: a missing operand is a selected register whose valid bit is 0, and with both operands the code is DIVZ
or OK. -/
theorem undefOperandExactlyOnInvalidSelection : Obligations.UndefOperandExactlyOnInvalidSelection := by
  refine fun i s => ⟨fun h => exec_of_missing_operand ((selectsInvalid_iff s i).mp h), fun h => ?_⟩
  refine ⟨_, exec_eq_finish i s, ?_⟩
  rw [State.finish_code]
  rcases answer_code_cases i s with ⟨hinvalid, -⟩ | ⟨-, -, hcode⟩ | ⟨-, -, hcode⟩
  · exact absurd hinvalid h
  · simp [hcode]
  · simp [hcode]

/-! ## The effect of a fault (R172) -/

section
variable {s : State}

theorem commandAnswer_of_error {why : Illegal} (h : decode s.ports.cmd = .error why) :
    s.commandAnswer = .fault .illegal := by
  simp only [State.commandAnswer, h]

theorem commandAnswer_of_ok {i : Instr} (h : decode s.ports.cmd = .ok i) : s.commandAnswer = s.answer i := by
  simp only [State.commandAnswer, h]

/-- Whatever word is presented, its command writes no register when it faults. -/
theorem commandAnswer_writes_none (h : s.commandAnswer.code ≠ .ok) :
    s.commandAnswer.r0 = none ∧ s.commandAnswer.r1 = none ∧ s.commandAnswer.cf = none := by
  cases hd : decode s.ports.cmd with
  | error why => rw [commandAnswer_of_error hd]; exact ⟨rfl, rfl, rfl⟩
  | ok i =>
    rw [commandAnswer_of_ok hd] at h ⊢
    exact (answer_followsRow s i).of_fault h

/-- An answer without values changes ST alone. -/
theorem finish_of_writes_none {w : Answer s.width} (h : w.r0 = none ∧ w.r1 = none ∧ w.cf = none) :
    s.finish w = { s with
      code := w.code
      dzs := s.dzs || w.code == .divz
      ils := s.ils || w.code == .illegal
      uos := s.uos || w.code == .undefOperand } := by
  obtain ⟨h0, h1, hc⟩ := h
  simp only [State.finish, h0, h1, hc, Option.none_or]

end

/-- Settles O11: the answer of a faulting command has no values. -/
theorem faultWritesOnlyTheStatus : Obligations.FaultWritesOnlyTheStatus := by
  intro s t p rest hp hstep hfault
  rw [step_command_eq_finish hp] at hstep
  cases hstep
  exact finish_of_writes_none (commandAnswer_writes_none hfault)

/-! ## The order of the faults (R175) -/

section
variable (s : State)

theorem commandAnswer_code_of_illegal (h : illegalWord s.ports.cmd) : s.commandAnswer.code = .illegal := by
  obtain ⟨why, hwhy⟩ := (decode_eq_error_iff s.ports.cmd).mpr h
  rw [commandAnswer_of_error hwhy]
  rfl

/-- The conditions of `answer_code_cases` exclude each other. -/
theorem commandAnswer_code_of_ok {i : Instr} (h : decode s.ports.cmd = .ok i) :
    (selectsInvalid i s → s.commandAnswer.code = .undefOperand)
      ∧ (¬ selectsInvalid i s → dividesByZero i s → s.commandAnswer.code = .divz)
      ∧ (¬ selectsInvalid i s → ¬ dividesByZero i s → s.commandAnswer.code = .ok) := by
  rw [commandAnswer_of_ok h]
  rcases answer_code_cases i s with ⟨hinvalid, hcode⟩ | ⟨hvalid, hzero, hcode⟩ | ⟨hvalid, hnonzero, hcode⟩
  · exact ⟨fun _ => hcode, absurd hinvalid, absurd hinvalid⟩
  · exact ⟨(absurd · hvalid), fun _ _ => hcode, fun _ => absurd hzero⟩
  · exact ⟨(absurd · hvalid), fun _ => (absurd · hnonzero), fun _ _ => hcode⟩

end

/-- Settles O12: the word decides between ILLEGAL and the command it decodes to, and R30's update sets the sticky bit of
the code. -/
theorem faultPriority : Obligations.FaultPriority := by
  intro s p rest hp
  exact ⟨_, step_command_eq_finish hp, rfl, rfl, rfl,
    commandAnswer_code_of_illegal { s with ports := p, pending := rest },
    fun _ => commandAnswer_code_of_ok { s with ports := p, pending := rest }⟩

end Sys2Proof.Machine
end

section
/-! Reset and runs (spec/70_reset_and_hazards.md R190, R191, R196, R199): both resets leave the reset state, and a run
takes the pending interactions one a step. -/

namespace Sys2Proof.Machine

/-! ## Reset -/

theorem resetBlock_st (s : State) : s.resetBlock.st = 0 := BitVec.eq_of_toNat_eq s.resetBlock.st_toNat

/-- After a reset the host reads no register and ST = 0x00 (R190). -/
theorem resetBlock_view (s : State) : s.resetBlock.view = ⟨none, none, none, 0⟩ :=
  congrArg (HostView.mk none none none) (resetBlock_st s)

/-- The state right after reset is one that a reset leaves unchanged. -/
theorem resetAt_resetBlock (e : Nat) : (State.resetAt e).resetBlock = State.resetAt e := rfl

theorem resetAt_view (e : Nat) : (State.resetAt e).view = ⟨none, none, none, 0⟩ := by
  rw [← resetAt_resetBlock, resetBlock_view]

/-- The block waits: the reset state has nothing pending. -/
theorem step_resetAt (e : Nat) : step (State.resetAt e) = .next (State.resetAt e) := step_of_idle rfl

/-- Settles O19: the reset interaction is `State.resetBlock`, and the reset state has nothing pending. -/
theorem resetClearsValidBitsAndStatus : Obligations.ResetClearsValidBitsAndStatus :=
  ⟨fun _ _ hreset => step_reset hreset, fun e => ⟨resetAt_view e, step_resetAt e⟩⟩

/-- Settles O20: a command abandoned by a reset is `State.resetBlock` on the sampled state; it is never decoded. -/
theorem resetDuringACommandAbandonsIt : Obligations.ResetDuringACommandAbandonsIt :=
  fun _ _ _ hreset => step_resetDuring hreset

/-! ## Runs -/

/-- A run of `j` steps answers a state of the same width with all but the first `j` interactions pending, by induction on
the steps. It holds past the end of the list too, where the block waits. -/
theorem run_drops_pending (j : Nat) (s : State) :
    ∃ (r0 r1 : Option (BitVec s.width)) (cf : Option Bool) (code : Code) (dzs ils uos : Bool) (ports : Ports s.width),
      Host.Core.run core j s = .next { s with r0 := r0, r1 := r1, cf := cf, code := code, dzs := dzs, ils := ils,
                                              uos := uos, ports := ports, pending := s.pending.drop j } := by
  induction j generalizing s with
  | zero => exact ⟨_, _, _, _, _, _, _, _, run_zero s⟩
  | succ j ih =>
    obtain ⟨r0, r1, cf, code, dzs, ils, uos, ports, hstep⟩ := everyStepCompletesAndTakesOneInteraction s
    rw [run_succ_of_next j hstep, ← List.drop_tail]
    exact ih { s with r0 := r0, r1 := r1, cf := cf, code := code, dzs := dzs, ils := ils, uos := uos, ports := ports,
                      pending := s.pending.tail }

/-- Settles O23: after as many steps as interactions are pending, dropping that many leaves none. -/
theorem runEndsAfterAsManyStepsAsInteractions : Obligations.RunEndsAfterAsManyStepsAsInteractions := by
  refine ⟨fun s => ?_, fun s j _ => run_drops_pending j s⟩
  obtain ⟨_, _, _, _, _, _, _, _, hrun⟩ := run_drops_pending s.pending.length s
  exact ⟨_, hrun, List.drop_length, rfl⟩

end Sys2Proof.Machine
end
